-- ==== Sys2Proof/Word.lean ====
section
/-! DEFINITION. The plain data types of the core: bytes, words, register indexes, instruction fields. -/

namespace Sys2Proof

/-- An 8-bit value: a register of the file, a memory byte, a timer, an NN field (R20, R27, R34, R92). -/
abbrev Byte := BitVec 8

/-- A 16-bit value: I, pc, a stack entry, an instruction word (R23, R24, R25, R90). -/
abbrev Word := BitVec 16

/-- An NNN field, a 12-bit address (R92). -/
abbrev Addr12 := BitVec 12

/-- A 4-bit field (R8, R92). -/
abbrev Nibble := BitVec 4

/-- The index of one of the 16 general registers V0 to VF (R20). -/
abbrev Reg := Fin 16

/-- The index of VF, the register that doubles as the flag (R21). -/
abbrev VF : Reg := 15

/-- The number of a logical key, 0 to 15 (R39). -/
abbrev Key := Fin 16

/-- The width of fault_info (R35). -/
abbrev Info := BitVec 17

end Sys2Proof
end

