-- ==== Sys2Proof/Decode.lean ====
section
/-! DEFINITION. Fields, the decoder of R96 and the encoder of R93. -/

namespace Sys2Proof

/-- The field primitive of R91: `len` nibbles from nibble position `p`, right-justified. -/
def field (w : Word) (p len : Nat) : Nat :=
  (w.toNat >>> (4 * (4 - p - len))) &&& (2 ^ (4 * len) - 1)

/-- T = w[15:12] (R92). -/
def fieldT (w : Word) : Nibble := w.extractLsb' 12 4

/-- X = w[11:8], as a register index (R92, R95). -/
def fieldX (w : Word) : Reg := (w.extractLsb' 8 4).toFin

/-- Y = w[7:4], as a register index (R92, R95). -/
def fieldY (w : Word) : Reg := (w.extractLsb' 4 4).toFin

/-- N = w[3:0] (R92). -/
def fieldN (w : Word) : Nibble := w.extractLsb' 0 4

/-- NN = w[7:0] (R92). -/
def fieldNN (w : Word) : Byte := w.extractLsb' 0 8

/-- NNN = w[11:0] (R92). -/
def fieldNNN (w : Word) : Addr12 := w.extractLsb' 0 12

/-- Family 0 (R97): 00E0 and 00EE exactly, every other word is SYS. -/
def decodeSys (w : Word) : Instr :=
  if w = 0x00E0#16 then .cls
  else if w = 0x00EE#16 then .ret
  else .sys (fieldNNN w)

/-- Family 8, keyed by the low nibble (R98). -/
def decodeAlu (w : Word) : Option Instr :=
  let x := fieldX w
  let y := fieldY w
  match fieldN w with
  | 0x0#4 => some (.ldReg x y)
  | 0x1#4 => some (.orReg x y)
  | 0x2#4 => some (.andReg x y)
  | 0x3#4 => some (.xorReg x y)
  | 0x4#4 => some (.addReg x y)
  | 0x5#4 => some (.sub x y)
  | 0x6#4 => some (.shr x y)
  | 0x7#4 => some (.subn x y)
  | 0xE#4 => some (.shl x y)
  | _ => none

/-- Family E, keyed by the low byte (R100). -/
def decodeKey (w : Word) : Option Instr :=
  match fieldNN w with
  | 0x9E#8 => some (.skp (fieldX w))
  | 0xA1#8 => some (.sknp (fieldX w))
  | _ => none

/-- Family F, keyed by the low byte (R99). -/
def decodeMisc (w : Word) : Option Instr :=
  let x := fieldX w
  match fieldNN w with
  | 0x07#8 => some (.ldVxDt x)
  | 0x0A#8 => some (.ldVxK x)
  | 0x15#8 => some (.ldDtVx x)
  | 0x18#8 => some (.ldStVx x)
  | 0x1E#8 => some (.addI x)
  | 0x29#8 => some (.ldF x)
  | 0x33#8 => some (.ldB x)
  | 0x55#8 => some (.ldMemVx x)
  | 0x65#8 => some (.ldVxMem x)
  | _ => none

/-- Families 5 and 9: the low nibble must be 0 (R101). -/
def decodeRegSkip (w : Word) (i : Reg → Reg → Instr) : Option Instr :=
  if fieldN w = 0#4 then some (i (fieldX w) (fieldY w)) else none

/-- The decoder of R96; `none` is ILLEGAL(w). -/
def decode (w : Word) : Option Instr :=
  match fieldT w with
  | 0x0#4 => some (decodeSys w)
  | 0x1#4 => some (.jp (fieldNNN w))
  | 0x2#4 => some (.call (fieldNNN w))
  | 0x3#4 => some (.seImm (fieldX w) (fieldNN w))
  | 0x4#4 => some (.sneImm (fieldX w) (fieldNN w))
  | 0x5#4 => decodeRegSkip w .seReg
  | 0x6#4 => some (.ldImm (fieldX w) (fieldNN w))
  | 0x7#4 => some (.addImm (fieldX w) (fieldNN w))
  | 0x8#4 => decodeAlu w
  | 0x9#4 => decodeRegSkip w .sneReg
  | 0xA#4 => some (.ldI (fieldNNN w))
  | 0xB#4 => some (.jpV0 (fieldNNN w))
  | 0xC#4 => some (.rnd (fieldX w) (fieldNN w))
  | 0xD#4 => some (.drw (fieldX w) (fieldY w) (fieldN w))
  | 0xE#4 => decodeKey w
  | _ => decodeMisc w

/-- The big-endian word of two consecutive bytes (R69). -/
def wordOfBytes (hi lo : Byte) : Word := hi ++ lo

/-- The byte of a word at the lower address (R69). -/
def highByte (w : Word) : Byte := w.extractLsb' 8 8

/-- The byte of a word at the higher address (R69). -/
def lowByte (w : Word) : Byte := w.extractLsb' 0 8

/-- Why a byte list starts with no instruction. -/
inductive DecodeError where
  /-- The first word is ILLEGAL (R96). -/
  | illegal (w : Word)
  /-- Fewer than two bytes are left (R90: every instruction is 2 bytes). -/
  | truncated
  deriving DecidableEq, Repr

/-- Decode the first instruction of a byte list and give the rest of the list: total, rejecting by
name. -/
def decodeBytes : List Byte → Except DecodeError (Instr × List Byte)
  | hi :: lo :: rest =>
    match decode (wordOfBytes hi lo) with
    | some i => .ok (i, rest)
    | none => .error (.illegal (wordOfBytes hi lo))
  | [_] => .error .truncated
  | [] => .error .truncated

/-- The two bytes of an instruction word as the hardware stores them, lower address first (R69). -/
def bytesOfWord (w : Word) : List Byte := [highByte w, lowByte w]

/-- Format ADDR (R93). -/
def wordAddr (t : Nibble) (nnn : Addr12) : Word := t ++ nnn

/-- Formats REG_IMM and REG_SUB (R93). -/
def wordRegImm (t : Nibble) (x : Reg) (nn : Byte) : Word := t ++ (BitVec.ofFin x : Nibble) ++ nn

/-- Formats REG_REG and DRAW (R93). -/
def wordRegReg (t : Nibble) (x y : Reg) (n : Nibble) : Word :=
  t ++ (BitVec.ofFin x : Nibble) ++ (BitVec.ofFin y : Nibble) ++ n

/-- The word of an instruction (R93, R102). -/
def encode : Instr → Word
  | .cls => 0x00E0#16
  | .ret => 0x00EE#16
  | .sys nnn => wordAddr 0x0#4 nnn
  | .jp nnn => wordAddr 0x1#4 nnn
  | .call nnn => wordAddr 0x2#4 nnn
  | .seImm x nn => wordRegImm 0x3#4 x nn
  | .sneImm x nn => wordRegImm 0x4#4 x nn
  | .seReg x y => wordRegReg 0x5#4 x y 0x0#4
  | .ldImm x nn => wordRegImm 0x6#4 x nn
  | .addImm x nn => wordRegImm 0x7#4 x nn
  | .ldReg x y => wordRegReg 0x8#4 x y 0x0#4
  | .orReg x y => wordRegReg 0x8#4 x y 0x1#4
  | .andReg x y => wordRegReg 0x8#4 x y 0x2#4
  | .xorReg x y => wordRegReg 0x8#4 x y 0x3#4
  | .addReg x y => wordRegReg 0x8#4 x y 0x4#4
  | .sub x y => wordRegReg 0x8#4 x y 0x5#4
  | .shr x y => wordRegReg 0x8#4 x y 0x6#4
  | .subn x y => wordRegReg 0x8#4 x y 0x7#4
  | .shl x y => wordRegReg 0x8#4 x y 0xE#4
  | .sneReg x y => wordRegReg 0x9#4 x y 0x0#4
  | .ldI nnn => wordAddr 0xA#4 nnn
  | .jpV0 nnn => wordAddr 0xB#4 nnn
  | .rnd x nn => wordRegImm 0xC#4 x nn
  | .drw x y n => wordRegReg 0xD#4 x y n
  | .skp x => wordRegImm 0xE#4 x 0x9E#8
  | .sknp x => wordRegImm 0xE#4 x 0xA1#8
  | .ldVxDt x => wordRegImm 0xF#4 x 0x07#8
  | .ldVxK x => wordRegImm 0xF#4 x 0x0A#8
  | .ldDtVx x => wordRegImm 0xF#4 x 0x15#8
  | .ldStVx x => wordRegImm 0xF#4 x 0x18#8
  | .addI x => wordRegImm 0xF#4 x 0x1E#8
  | .ldF x => wordRegImm 0xF#4 x 0x29#8
  | .ldB x => wordRegImm 0xF#4 x 0x33#8
  | .ldMemVx x => wordRegImm 0xF#4 x 0x55#8
  | .ldVxMem x => wordRegImm 0xF#4 x 0x65#8

/-- The instruction the decoder reads from the table's numbering of the bits: every instruction is
one word, so bits above 15 are no part of it, and bits from `nbits` on are 0 (R90). -/
def decodeTableWord (nbits w : Nat) : Option Instr :=
  match decodeBytes (bytesOfWord (BitVec.ofNat 16 (w % 2 ^ nbits))) with
  | .ok (i, _) => some i
  | .error _ => none

end Sys2Proof
end

