-- ==== Sys2Proof/Config.lean ====
section
/-! DEFINITION. What an implementation fixes (the sizes of R6, the parameters of R7) and the free values. -/

namespace Sys2Proof

/-- MEM_SIZE (R6): the addresses are 0 to `memSize - 1`. -/
def Config.memSize : Nat := 0x1000

/-- PROG_BASE (R6): where the program space, a loaded ROM and execution start. -/
def Config.progBase : Nat := 0x200

/-- DISP_W (R6). -/
def Config.dispW : Nat := 64

/-- DISP_H (R6). -/
def Config.dispH : Nat := 32

/-- GLYPH_SIZE (R6): bytes of one glyph. -/
def Config.glyphSize : Nat := 5

/-- NKEYS (R6). -/
def Config.nKeys : Nat := 16

/-- FONT (R7, R63): the 80 glyph bytes at 0x000 to 0x04F. -/
abbrev Font := Vector Byte 80

/-- LOW_WRITE_POLICY (R7, R67). -/
inductive LowWritePolicy where
  | fault
  | perform
  deriving DecidableEq, Repr

/-- SHIFT_SOURCE (R7, R197, R199). -/
inductive ShiftSource where
  | vx
  | vy
  deriving DecidableEq, Repr

/-- DRAW_EDGE (R7, R246 to R248). -/
inductive DrawEdge where
  | clip
  | wrap
  | flat
  deriving DecidableEq, Repr

/-- TIMERS_IN_KEY_WAIT (R7, R36). -/
inductive KeyWaitTimers where
  | frozen
  | running
  deriving DecidableEq, Repr

/-- The six parameters of R7. The model is given them once, in `State.params` (DESIGN CHOICE, log 1). -/
structure Params where
  font            : Font
  lowWritePolicy  : LowWritePolicy
  shiftSource     : ShiftSource
  fx1eVfClear     : Bool
  drawEdge        : DrawEdge
  timersInKeyWait : KeyWaitTimers
  deriving DecidableEq, Repr

/-- The byte on the rnd input at a draw that no listed event supplies: any value (R228, D20).
A free value, safe (log 6). -/
opaque Config.freeRnd : Nat → Byte

/-- The keys_held level at a sampling while no listed event drives the port: any value (R272).
A free value, safe (log 7). -/
opaque Config.freeKeysHeld : Nat → BitVec 16

end Sys2Proof
end

