-- ==== Sys2Proof/Machine/Defaults.lean ====
section
/-! DEFINITION. The default value of every parameter (R7) and what memory holds at reset (R41, R63). -/

namespace Sys2Proof.Machine

/-- The glyph bytes of digits 0 to 7 (R63). PRESUMED by the spec, unsafe (log 2). -/
def standardGlyphs0to7 : List Byte :=
  [0xF0, 0x90, 0x90, 0x90, 0xF0] ++ [0x20, 0x60, 0x20, 0x20, 0x70] ++
  [0xF0, 0x10, 0xF0, 0x80, 0xF0] ++ [0xF0, 0x10, 0xF0, 0x10, 0xF0] ++
  [0x90, 0x90, 0xF0, 0x10, 0x10] ++ [0xF0, 0x80, 0xF0, 0x10, 0xF0] ++
  [0xF0, 0x80, 0xF0, 0x90, 0xF0] ++ [0xF0, 0x10, 0x20, 0x40, 0x40]

/-- The glyph bytes of digits 8 to F (R63). PRESUMED by the spec, unsafe (log 2). -/
def standardGlyphs8toF : List Byte :=
  [0xF0, 0x90, 0xF0, 0x90, 0xF0] ++ [0xF0, 0x90, 0xF0, 0x10, 0xF0] ++
  [0xF0, 0x90, 0xF0, 0x90, 0x90] ++ [0xE0, 0x90, 0xE0, 0x90, 0xE0] ++
  [0xF0, 0x80, 0x80, 0x80, 0xF0] ++ [0xE0, 0x90, 0x90, 0x90, 0xE0] ++
  [0xF0, 0x80, 0xF0, 0x80, 0xF0] ++ [0xF0, 0x80, 0xF0, 0x80, 0x80]

/-- The default FONT, glyph d at bytes 5d to 5d + 4 (R63). -/
def standardFont : Font :=
  Vector.ofFn fun k => (standardGlyphs0to7 ++ standardGlyphs8toF).getD k.val 0

/-- The defaults of R7, each decided by the spec (log 3). -/
def defaultParams : Params where
  font := standardFont
  lowWritePolicy := .fault
  shiftSource := .vx
  fx1eVfClear := true
  drawEdge := .clip
  timersInKeyWait := .frozen

/-- What memory holds at reset, and so what an unlisted address reads as: FONT at 0x000 to 0x04F,
0 everywhere else (R41, R62, R64). -/
def resetByte (font : Font) (a : Nat) : Byte := if h : a < 80 then font[a] else 0

end Sys2Proof.Machine
end

