-- ==== Sys2Proof/Machine/State.lean ====
section
/-! DEFINITION. The state of the core as plain data, its ports, the reasons a step can stop, and reset. -/

namespace Sys2Proof.Machine

/-- The three run states (R36). -/
inductive RunState where
  | run
  | awaitKey
  | faulted
  deriving DecidableEq, Repr

/-- The value of fault_cause (R321). These are conditions of the core itself: it latches them and goes
on existing in FAULTED, so they are no `Fault` of the model. -/
inductive Cause where
  | none
  | illegalInstruction
  | addressFault
  | reservedWriteFault
  | stackOverflowFault
  | stackUnderflowFault
  | keyIndexFault
  | drawBoundsFault
  deriving DecidableEq, Repr

/-- What `raise F(info)` names: the cause and the recorded info (R12, R322). -/
structure Trap where
  cause : Cause
  info  : Info
  deriving DecidableEq, Repr

/-- The port events of R39. A level change of keys_held and a byte put on rnd are events too. -/
inductive Event where
  | reset
  | load (rom : List Byte)
  | step
  | tick
  | keysHeld (level : BitVec 16)
  | keyPress (k : Key)
  | rnd (b : Byte)
  | presentAck
  deriving DecidableEq, Repr

/-- Why the model stops with a fault: never. Every fault of the spec is a condition the core latches
(R321, R322; log 13), and a load that fails leaves the core as it was (R363; log 11). -/
inductive Fault : Type
  deriving DecidableEq, Repr

/-- What the model gives no meaning. -/
inductive Refusal where
  /-- An instruction without a meaning. No arm of exec answers it. Safe. -/
  | notModelled (mnemonic : String)
  /-- Raised by a load event after the first step since reset: it "has no defined meaning ... A model
  should refuse it" (R364). Safe (log 10). -/
  | lateLoad
  deriving DecidableEq, Repr

/-- The display, one 64-bit row per y: bit x of row y is the cell at column x (R30; log 16). -/
abbrev Display := Vector (BitVec 64) 32

/-- Everything the spec gives the machine (R35, R41), its ports (R39, R40), and the model's own fields. -/
structure State where
  /-- The parameters of R7; nothing changes them (log 1). -/
  params        : Params
  /-- V0 to VF (R20). -/
  v             : Vector Byte 16
  /-- The address register (R23). -/
  I             : Word
  /-- The program counter (R24). -/
  pc            : Word
  /-- The call stack (R25). -/
  stack         : Vector Word 16
  /-- SP, the number of occupied entries, 0 to 16 (R26). -/
  sp            : Fin 17
  /-- DT (R27). -/
  dt            : Byte
  /-- ST (R27). -/
  st            : Byte
  /-- The display (R30). -/
  fb            : Display
  /-- The dirty flag (R32). -/
  dirty         : Bool
  /-- run_state (R36). -/
  runState      : RunState
  /-- wait_reg (R36). -/
  waitReg       : Reg
  /-- fault_cause (R37). -/
  faultCause    : Cause
  /-- fault_pc (R37). -/
  faultPc       : Word
  /-- fault_info (R37). -/
  faultInfo     : Info
  /-- The bytes of memory that differ from `resetByte`, by rising address (R34; log 15). -/
  mem           : List Host.Cell
  /-- The keys_held level, where an event has driven it (R39; log 7). -/
  keysHeld      : Option (BitVec 16)
  /-- The byte put on rnd for the next CXNN, if any (R39; log 6). -/
  rnd           : Option Byte
  /-- How often force_present has pulsed since reset (R40; log 9). -/
  forcePresents : Nat
  /-- How many loads have failed as a host load error since reset (R363; log 11). -/
  loadErrors    : Nat
  /-- The port events still to come, oldest first (R340; log 5). -/
  inputs        : List Event
  /-- How many port values have been sampled (log 8). -/
  draws         : Nat
  /-- Whether a step has been executed since reset (R364; log 10). -/
  started       : Bool
  deriving DecidableEq, Repr

/-- The machine right after reset (R41, R360), with the default parameters and no event listed. -/
def State.reset : State where
  params := defaultParams
  v := Vector.replicate 16 0
  I := 0
  pc := 0x200
  stack := Vector.replicate 16 0
  sp := 0
  dt := 0
  st := 0
  fb := Vector.replicate 32 0
  dirty := false
  runState := .run
  waitReg := 0
  faultCause := .none
  faultPc := 0
  faultInfo := 0
  mem := []
  keysHeld := none
  rnd := none
  forcePresents := 0
  loadErrors := 0
  inputs := []
  draws := 0
  started := false

end Sys2Proof.Machine
end

