-- ==== Sys2Proof/Machine/Ops.lean ====
section
/-! DEFINITION. The operations over registers, memory, stack and display, and taking a fault. -/

namespace Sys2Proof.Machine

/-! ### Registers: one home each, every read and write through these. -/

/-- Read V[x] (R10). -/
def State.reg (s : State) (x : Reg) : Byte := s.v[x.val]

/-- `V[x] <- b` (R10). -/
def State.setReg (s : State) (x : Reg) (b : Byte) : State := { s with v := s.v.set x.val b }

/-- `I <- a` (R10). -/
def State.setI (s : State) (a : Word) : State := { s with I := a }

/-- `pc <- a` (R10). -/
def State.setPc (s : State) (a : Word) : State := { s with pc := a }

/-- `DT <- b` (R10). -/
def State.setDt (s : State) (b : Byte) : State := { s with dt := b }

/-- `ST <- b` (R10). -/
def State.setSt (s : State) (b : Byte) : State := { s with st := b }

/-- Write the whole display. -/
def State.setFb (s : State) (fb : Display) : State := { s with fb := fb }

/-- Write the dirty flag (R32). -/
def State.setDirty (s : State) (d : Bool) : State := { s with dirty := d }

/-- Write the list that holds memory. -/
def State.setMem (s : State) (m : List Host.Cell) : State := { s with mem := m }

/-- Write the list of events still to come (log 5). -/
def State.setInputs (s : State) (es : List Event) : State := { s with inputs := es }

/-- Record that a step has been executed since reset (log 10). -/
def State.setStarted (s : State) : State := { s with started := true }

/-! ### The pc update that closes every instruction (R124); sums are mod 2^16. -/

/-- The normal advance. -/
def State.advance (s : State) : State := s.setPc (s.pc + 2)

/-- A conditional skip: 2 on top of the normal advance when `c` holds (R124, R164). -/
def State.skipIf (s : State) (c : Bool) : State := s.setPc (s.pc + if c then 4 else 2)

/-! ### Taking a fault. -/

/-- Fault entry (R322): latch cause, pc and info, and enter FAULTED; nothing else changes.
There is no return from a fault but the reset event (R324). -/
def State.raise (s : State) (t : Trap) : State :=
  { s with faultCause := t.cause, faultPc := s.pc, faultInfo := t.info, runState := .faulted }

/-- The code of a fault cause (R321). -/
def Cause.code : Cause → BitVec 3
  | .none => 0
  | .illegalInstruction => 1
  | .addressFault => 2
  | .reservedWriteFault => 3
  | .stackOverflowFault => 4
  | .stackUnderflowFault => 5
  | .keyIndexFault => 6
  | .drawBoundsFault => 7

/-! ### Memory as a list of the bytes that differ from what `base` gives (log 15). -/

/-- The byte at `a`. -/
def Memory.read (base : Nat → Byte) : List Host.Cell → Nat → Byte
  | [], a => base a
  | (b, w) :: m, a => if a = b then w else Memory.read base m a

/-- Put `w` at `a` in front of `m`, or leave `a` unlisted where `base a` is `w`. -/
def Memory.cons (base : Nat → Byte) (a : Nat) (w : Byte) (m : List Host.Cell) : List Host.Cell :=
  if w = base a then m else (a, w) :: m

/-- Write `w` at `a`, keeping the canonical form. -/
def Memory.write (base : Nat → Byte) : List Host.Cell → Nat → Byte → List Host.Cell
  | [], a, w => Memory.cons base a w []
  | (b, u) :: m, a, w =>
    if a < b then Memory.cons base a w ((b, u) :: m)
    else if a = b then Memory.cons base a w m
    else (b, u) :: Memory.write base m a w

/-- Write consecutive bytes from `a` on, in ascending order (R11, R74). -/
def Memory.writeAll (base : Nat → Byte) : List Host.Cell → Nat → List Byte → List Host.Cell
  | m, _, [] => m
  | m, a, w :: ws => Memory.writeAll base (Memory.write base m a w) (a + 1) ws

/-- The canonical form: addresses rise from `lo` on and stay below MEM_SIZE, and no entry equals what
the address reads as unlisted. -/
def Memory.wfFrom (base : Nat → Byte) : Nat → List Host.Cell → Bool
  | _, [] => true
  | lo, (a, w) :: m =>
    decide (lo ≤ a) && decide (a < Config.memSize) && decide (w ≠ base a) && Memory.wfFrom base (a + 1) m

/-- The canonical form of a whole memory. -/
def Memory.wf (base : Nat → Byte) (m : List Host.Cell) : Bool := Memory.wfFrom base 0 m

/-- What an unlisted address reads as in `s` (R41). -/
def State.base (s : State) : Nat → Byte := resetByte s.params.font

/-- Read one byte of memory. -/
def State.readByte (s : State) (a : Nat) : Byte := Memory.read s.base s.mem a

/-- The n bytes from `a` on, unchecked. -/
def State.readBytes (s : State) (a n : Nat) : List Byte := (List.range n).map fun k => s.readByte (a + k)

/-- Store consecutive bytes from `a` on, unchecked. -/
def State.storeBytes (s : State) (a : Nat) (ws : List Byte) : State :=
  s.setMem (Memory.writeAll s.base s.mem a ws)

/-! ### The access checks. -/

/-- The range check of R66 on n bytes from `a` on: AddressFault with the lowest address outside. -/
def rangeTrap (a n : Nat) : Option Trap :=
  if 0 < n ∧ Config.memSize < a + n then
    some ⟨.addressFault, BitVec.ofNat 17 (max a Config.memSize)⟩
  else none

/-- The reserved-area check of R67 on a write of n bytes from `a` on. -/
def reservedTrap (policy : LowWritePolicy) (a n : Nat) : Option Trap :=
  match policy with
  | .perform => none
  | .fault => if 0 < n ∧ a < Config.progBase then some ⟨.reservedWriteFault, BitVec.ofNat 17 a⟩ else none

/-- `MemRead(a, n)` (R11). -/
def State.memRead (s : State) (a n : Nat) : Except Trap (List Byte) :=
  match rangeTrap a n with
  | some t => .error t
  | none => .ok (s.readBytes a n)

/-- `MemRead16(a)`, big-endian (R11, R69). -/
def State.memRead16 (s : State) (a : Nat) : Except Trap Word :=
  match rangeTrap a 2 with
  | some t => .error t
  | none => .ok (wordOfBytes (s.readByte a) (s.readByte (a + 1)))

/-- `MemWrite(a, n, bytes)` by an instruction: R66, then R67, then the bytes (R11, R68). -/
def State.memWrite (s : State) (a : Nat) (ws : List Byte) : Except Trap State :=
  match rangeTrap a ws.length with
  | some t => .error t
  | none =>
    match reservedTrap s.params.lowWritePolicy a ws.length with
    | some t => .error t
    | none => .ok (s.storeBytes a ws)

/-! ### The call stack (R26). -/

/-- Push: `stack[SP] <- a; SP <- SP + 1`; StackOverflowFault(w) when SP = 16. -/
def State.push (s : State) (w a : Word) : Except Trap State :=
  if h : s.sp.val < 16 then
    .ok { s with stack := s.stack.set s.sp.val a, sp := ⟨s.sp.val + 1, by omega⟩ }
  else .error ⟨.stackOverflowFault, w.setWidth 17⟩

/-- Pop: `SP <- SP - 1`, and the entry it uncovers, which is not cleared; StackUnderflowFault(w) when
SP = 0. -/
def State.pop (s : State) (w : Word) : Except Trap (State × Word) :=
  if h : s.sp.val = 0 then .error ⟨.stackUnderflowFault, w.setWidth 17⟩
  else
    have hlt : s.sp.val - 1 < 16 := by have := s.sp.isLt; omega
    .ok ({ s with sp := ⟨s.sp.val - 1, by omega⟩ }, s.stack[s.sp.val - 1])

/-! ### The display. -/

/-- The cell at column x and row y; off the display it reads as clear. -/
def Display.cell (fb : Display) (x y : Nat) : Bool :=
  if h : y < 32 then fb[y].getLsbD x else false

/-- XOR the cell at column x and row y with 1 (R244). -/
def Display.flip (fb : Display) (x y : Nat) : Display :=
  if h : y < 32 then fb.set y (fb[y] ^^^ BitVec.twoPow 64 x) else fb

/-- The loop of R240 over the cells that a draw reaches: XOR each and note a collision. -/
def Display.draw : List (Nat × Nat) → Display → Bool → Display × Bool
  | [], fb, hit => (fb, hit)
  | (x, y) :: cs, fb, hit => Display.draw cs (Display.flip fb x y) (hit || Display.cell fb x y)

/-- `fb[x, y]` (R10). -/
def State.pixel (s : State) (x y : Nat) : Bool := Display.cell s.fb x y

/-! ### The key wait (R283) and the sampled input ports. -/

/-- Enter AWAIT_KEY for register x, pulsing force_present (R283). -/
def State.awaitKey (s : State) (x : Reg) : State :=
  { s with waitReg := x, runState := .awaitKey, forcePresents := s.forcePresents + 1 }

/-- The keys_held level now: the driven level, or a free value (R272; log 7). -/
def State.keyLevel (s : State) : BitVec 16 := s.keysHeld.getD (Config.freeKeysHeld s.draws)

/-- `KeyHeld(k)` (R12). -/
def State.keyHeld (s : State) (k : Nat) : Bool := s.keyLevel.getLsbD k

/-- The byte on the rnd input now: the supplied one, or a free value (R12, R228; log 6). -/
def State.rndByte (s : State) : Byte := s.rnd.getD (Config.freeRnd s.draws)

/-- A sampling of keys_held has taken place (log 8). -/
def State.sampledKeys (s : State) : State := { s with draws := s.draws + 1 }

/-- A CXNN has used the byte on rnd (R39: one draw per execution; log 8). -/
def State.usedRnd (s : State) : State := { s with rnd := none, draws := s.draws + 1 }

end Sys2Proof.Machine
end

