-- ==== Sys2Proof/Machine/Operands.lean ====
section
/-! DEFINITION. The operand forms: immediates, the shift source, decimal digits, register blocks and
sprites. -/

namespace Sys2Proof.Machine

/-- NNN where it is written to pc or I: zero-extended (R94). -/
def zext16 (nnn : Addr12) : Word := nnn.setWidth 16

/-- The register that 8XY6 and 8XYE shift (R197, R199). -/
def State.shiftOperand (s : State) (x y : Reg) : Byte :=
  match s.params.shiftSource with
  | .vx => s.reg x
  | .vy => s.reg y

/-- The address of the glyph of Vx: the whole byte times 5 (R291). -/
def glyphAddress (b : Byte) : Word := BitVec.ofNat 16 (b.toNat * Config.glyphSize)

/-- The three decimal digits of a byte, most significant first (R294). -/
def decimalDigits (b : Byte) : List Byte :=
  [BitVec.ofNat 8 (b.toNat / 100), BitVec.ofNat 8 (b.toNat / 10 % 10), BitVec.ofNat 8 (b.toNat % 10)]

/-- V0 to Vx inclusive, in order (R95, R296). -/
def State.regBlock (s : State) (x : Reg) : List Byte := s.v.toList.take (x.val + 1)

/-- The loop `V[k] <- bytes[k]` from register k on (R298). -/
def loadFrom (v : Vector Byte 16) : Nat → List Byte → Vector Byte 16
  | _, [] => v
  | k, b :: bs => loadFrom (v.setIfInBounds k b) (k + 1) bs

/-- A list of bytes written to V0, V1, ... in order; the registers past its end stay (R298). -/
def State.loadRegs (s : State) (bytes : List Byte) : State := { s with v := loadFrom s.v 0 bytes }

/-- The columns of the set bits of a sprite row, ascending; column 0 is bit 7 (R243). -/
def rowColumns (b : Byte) : List Nat := (List.range 8).filter fun c => b.getLsbD (7 - c)

/-- The (column, row) pairs of the set bits of a sprite whose first row is numbered r, in the order of
R240's loops. -/
def spriteBits : Nat → List Byte → List (Nat × Nat)
  | _, [] => []
  | r, b :: bs => (rowColumns b).map (fun c => (c, r)) ++ spriteBits (r + 1) bs

/-- Where one set sprite bit lands. -/
inductive Placed where
  | cell (x y : Nat)
  | dropped
  | outside (i : Nat)
  deriving DecidableEq, Repr

/-- Place a set bit that is to land at column x and row y (R246, R247, R248). -/
def placeBit (edge : DrawEdge) (x y : Nat) : Placed :=
  match edge with
  | .clip => if x < Config.dispW ∧ y < Config.dispH then .cell x y else .dropped
  | .wrap => .cell (x % Config.dispW) (y % Config.dispH)
  | .flat =>
    let i := y * Config.dispW + x
    if i < Config.dispW * Config.dispH then .cell (i % Config.dispW) (i / Config.dispW) else .outside i

/-- The cells that the set bits of a sprite at (x0, y0) reach, in order, or DrawBoundsFault for the first
bit outside the array (R240, R247). -/
def placeBits (edge : DrawEdge) (x0 y0 : Nat) : List (Nat × Nat) → Except Trap (List (Nat × Nat))
  | [] => .ok []
  | (c, r) :: bits =>
    match placeBit edge (x0 + c) (y0 + r) with
    | .outside i => .error ⟨.drawBoundsFault, BitVec.ofNat 17 i⟩
    | .dropped => placeBits edge x0 y0 bits
    | .cell x y =>
      match placeBits edge x0 y0 bits with
      | .ok cells => .ok ((x, y) :: cells)
      | .error t => .error t

end Sys2Proof.Machine
end

