-- ==== Sys2Proof/Machine/Flags.lean ====
section
/-! DEFINITION. VF, the only flag: how each operation computes it and when it is written. -/

namespace Sys2Proof.Machine

/-- A comparison as a register value: 1 when true, 0 when false (R9). -/
def flagByte (c : Bool) : Byte := if c then 1 else 0

/-- Write a flag to VF. -/
def State.setFlag (s : State) (c : Bool) : State := s.setReg VF (flagByte c)

/-- Write the result register first and VF last, so that VF holds the flag when X = 15 (R123, R190). -/
def State.setRegFlag (s : State) (x : Reg) (r : Byte) (c : Bool) : State := (s.setReg x r).setFlag c

/-- The carry of 8XY4: the exact sum exceeds 255 (R195). -/
def carryOf (a b : Byte) : Bool := decide (a.toNat + b.toNat > 255)

/-- The flag of 8XY5 and 8XY7: strictly greater (R196, R198). -/
def greaterThan (a b : Byte) : Bool := decide (a.toNat > b.toNat)

/-- The bit that a right shift by 1 moves out (R197). -/
def lowBit (a : Byte) : Bool := a.getLsbD 0

/-- The bit that a left shift by 1 moves out (R199). -/
def highBit (a : Byte) : Bool := a.getLsbD 7

/-- The exact sum of FX1E, 0 to 0x100FE (R288). -/
def indexSum (i : Word) (a : Byte) : Nat := i.toNat + a.toNat

/-- VF after FX1E (R288): the comparison of the exact sum, or only set and never cleared. -/
def State.setIndexFlag (s : State) (sum : Nat) : State :=
  match s.params.fx1eVfClear with
  | true => s.setFlag (decide (sum > 0xFFF))
  | false => if sum > 0xFFF then s.setFlag true else s

end Sys2Proof.Machine
end

