-- ==== Sys2Proof/Machine/Alu.lean ====
section
/-! DEFINITION. Family 8: the register ALU. Operands are read before anything is written (R190). -/

namespace Sys2Proof.Machine

/-- LD Vx, Vy (R191). -/
def execLdReg (x y : Reg) (s : State) : Host.Outcome State Fault Refusal :=
  .next (s.setReg x (s.reg y)).advance

/-- OR Vx, Vy (R192). -/
def execOrReg (x y : Reg) (s : State) : Host.Outcome State Fault Refusal :=
  .next (s.setReg x (s.reg x ||| s.reg y)).advance

/-- AND Vx, Vy (R193). -/
def execAndReg (x y : Reg) (s : State) : Host.Outcome State Fault Refusal :=
  .next (s.setReg x (s.reg x &&& s.reg y)).advance

/-- XOR Vx, Vy (R194). -/
def execXorReg (x y : Reg) (s : State) : Host.Outcome State Fault Refusal :=
  .next (s.setReg x (s.reg x ^^^ s.reg y)).advance

/-- ADD Vx, Vy (R195). -/
def execAddReg (x y : Reg) (s : State) : Host.Outcome State Fault Refusal :=
  .next (s.setRegFlag x (s.reg x + s.reg y) (carryOf (s.reg x) (s.reg y))).advance

/-- SUB Vx, Vy (R196). -/
def execSub (x y : Reg) (s : State) : Host.Outcome State Fault Refusal :=
  .next (s.setRegFlag x (s.reg x - s.reg y) (greaterThan (s.reg x) (s.reg y))).advance

/-- SHR Vx, Vy (R197). -/
def execShr (x y : Reg) (s : State) : Host.Outcome State Fault Refusal :=
  .next (s.setRegFlag x (s.shiftOperand x y >>> 1) (lowBit (s.shiftOperand x y))).advance

/-- SUBN Vx, Vy (R198). -/
def execSubn (x y : Reg) (s : State) : Host.Outcome State Fault Refusal :=
  .next (s.setRegFlag x (s.reg y - s.reg x) (greaterThan (s.reg y) (s.reg x))).advance

/-- SHL Vx, Vy (R199). -/
def execShl (x y : Reg) (s : State) : Host.Outcome State Fault Refusal :=
  .next (s.setRegFlag x (s.shiftOperand x y <<< 1) (highBit (s.shiftOperand x y))).advance

end Sys2Proof.Machine
end

