-- ==== Sys2Proof/Machine/Draw.lean ====
section
/-! DEFINITION. Family D: the sprite draw. -/

namespace Sys2Proof.Machine

/-- Read the sprite and find the cells it reaches: every check of R240, before any write. -/
def State.spriteCells (s : State) (x y : Reg) (n : Nibble) : Except Trap (List (Nat × Nat)) :=
  match s.memRead s.I.toNat n.toNat with
  | .error t => .error t
  | .ok rows => placeBits s.params.drawEdge (s.reg x).toNat (s.reg y).toNat (spriteBits 0 rows)

/-- XOR the cells and write VF and dirty (R240, R245, R249). -/
def State.drawCells (s : State) (cells : List (Nat × Nat)) : State :=
  ((s.setFb (Display.draw cells s.fb false).1).setFlag (Display.draw cells s.fb false).2).setDirty true

/-- DRW Vx, Vy, N (R240). -/
def execDrw (x y : Reg) (n : Nibble) (s : State) : Host.Outcome State Fault Refusal :=
  match s.spriteCells x y n with
  | .error t => .next (s.raise t)
  | .ok cells => .next (s.drawCells cells).advance

end Sys2Proof.Machine
end

