-- ==== Sys2Proof/Machine/IndexJumpRandom.lean ====
section
/-! DEFINITION. Families A, B and C: load I, jump with offset, random. -/

namespace Sys2Proof.Machine

/-- LD I, NNN (R220). -/
def execLdI (nnn : Addr12) (s : State) : Host.Outcome State Fault Refusal :=
  .next (s.setI (zext16 nnn)).advance

/-- JP V0, NNN (R224). -/
def execJpV0 (nnn : Addr12) (s : State) : Host.Outcome State Fault Refusal :=
  .next (s.setPc (zext16 nnn + (s.reg 0).setWidth 16))

/-- RND Vx, NN (R228): the byte on rnd AND the mask; the byte is used up. -/
def execRnd (x : Reg) (nn : Byte) (s : State) : Host.Outcome State Fault Refusal :=
  .next (s.usedRnd.setReg x (s.rndByte &&& nn)).advance

end Sys2Proof.Machine
end

