-- ==== Sys2Proof/Machine/Keys.lean ====
section
/-! DEFINITION. Family E: key skips. -/

namespace Sys2Proof.Machine

/-- KeyIndexFault(V[x]) when V[x] names no logical key (R273). -/
def State.keyTrap (s : State) (x : Reg) : Option Trap :=
  if Config.nKeys ≤ (s.reg x).toNat then some ⟨.keyIndexFault, (s.reg x).setWidth 17⟩ else none

/-- SKP Vx (R270). -/
def execSkp (x : Reg) (s : State) : Host.Outcome State Fault Refusal :=
  match s.keyTrap x with
  | some t => .next (s.raise t)
  | none => .next (s.sampledKeys.skipIf (s.keyHeld (s.reg x).toNat))

/-- SKNP Vx (R271). -/
def execSknp (x : Reg) (s : State) : Host.Outcome State Fault Refusal :=
  match s.keyTrap x with
  | some t => .next (s.raise t)
  | none => .next (s.sampledKeys.skipIf (!s.keyHeld (s.reg x).toNat))

end Sys2Proof.Machine
end

