-- ==== Sys2Proof/Machine/LoadAddImm.lean ====
section
/-! DEFINITION. Families 6 and 7: load and add immediate. -/

namespace Sys2Proof.Machine

/-- LD Vx, NN (R180). -/
def execLdImm (x : Reg) (nn : Byte) (s : State) : Host.Outcome State Fault Refusal :=
  .next (s.setReg x nn).advance

/-- ADD Vx, NN (R181): mod 2^8, no flag. -/
def execAddImm (x : Reg) (nn : Byte) (s : State) : Host.Outcome State Fault Refusal :=
  .next (s.setReg x (s.reg x + nn)).advance

end Sys2Proof.Machine
end

