-- ==== Sys2Proof/Machine/SysJumpCall.lean ====
section
/-! DEFINITION. Families 0, 1 and 2: CLS, RET, SYS, JP, CALL. -/

namespace Sys2Proof.Machine

/-- CLS (R140): every cell 0, dirty set. -/
def execCls (s : State) : Host.Outcome State Fault Refusal :=
  .next ((s.setFb (Vector.replicate 32 0)).setDirty true).advance

/-- RET (R141): pop, then the normal advance from the popped address (R125). -/
def execRet (s : State) : Host.Outcome State Fault Refusal :=
  match s.pop (encode .ret) with
  | .error t => .next (s.raise t)
  | .ok (t, a) => .next (t.setPc (a + 2))

/-- SYS NNN (R142): no-op. -/
def execSys (_nnn : Addr12) (s : State) : Host.Outcome State Fault Refusal := .next s.advance

/-- JP NNN (R143). -/
def execJp (nnn : Addr12) (s : State) : Host.Outcome State Fault Refusal := .next (s.setPc (zext16 nnn))

/-- CALL NNN (R144): push the address of this CALL, then jump. -/
def execCall (nnn : Addr12) (s : State) : Host.Outcome State Fault Refusal :=
  match s.push (encode (.call nnn)) s.pc with
  | .error t => .next (s.raise t)
  | .ok t => .next (t.setPc (zext16 nnn))

end Sys2Proof.Machine
end

