-- ==== Sys2Proof/Machine/TimersMemory.lean ====
section
/-! DEFINITION. Family F: timers, key wait, I and memory. -/

namespace Sys2Proof.Machine

/-- LD Vx, DT (R280). -/
def execLdVxDt (x : Reg) (s : State) : Host.Outcome State Fault Refusal :=
  .next (s.setReg x s.dt).advance

/-- LD Vx, K, entry (R283): wait for a key press; pc is not advanced. -/
def execLdVxK (x : Reg) (s : State) : Host.Outcome State Fault Refusal := .next (s.awaitKey x)

/-- LD DT, Vx (R286). -/
def execLdDtVx (x : Reg) (s : State) : Host.Outcome State Fault Refusal :=
  .next (s.setDt (s.reg x)).advance

/-- LD ST, Vx (R287). -/
def execLdStVx (x : Reg) (s : State) : Host.Outcome State Fault Refusal :=
  .next (s.setSt (s.reg x)).advance

/-- ADD I, Vx (R288): I first, VF last. -/
def execAddI (x : Reg) (s : State) : Host.Outcome State Fault Refusal :=
  .next (((s.setI (BitVec.ofNat 16 (indexSum s.I (s.reg x)))).setIndexFlag (indexSum s.I (s.reg x))).advance)

/-- LD F, Vx (R291). -/
def execLdF (x : Reg) (s : State) : Host.Outcome State Fault Refusal :=
  .next (s.setI (glyphAddress (s.reg x))).advance

/-- LD B, Vx (R294). -/
def execLdB (x : Reg) (s : State) : Host.Outcome State Fault Refusal :=
  match s.memWrite s.I.toNat (decimalDigits (s.reg x)) with
  | .error t => .next (s.raise t)
  | .ok t => .next t.advance

/-- LD [I], Vx (R296). -/
def execLdMemVx (x : Reg) (s : State) : Host.Outcome State Fault Refusal :=
  match s.memWrite s.I.toNat (s.regBlock x) with
  | .error t => .next (s.raise t)
  | .ok t => .next t.advance

/-- LD Vx, [I] (R298). -/
def execLdVxMem (x : Reg) (s : State) : Host.Outcome State Fault Refusal :=
  match s.memRead s.I.toNat (x.val + 1) with
  | .error t => .next (s.raise t)
  | .ok bytes => .next (s.loadRegs bytes).advance

end Sys2Proof.Machine
end

