-- ==== Sys2Proof/Machine/Events.lean ====
section
/-! DEFINITION. The port events other than a step: reset, load, tick, key press, levels, present_ack. -/

namespace Sys2Proof.Machine

/-- The reset event (R360): every piece of the core's state gets its R41 value. What is not the core's
state stays: the parameters, the input ports and the events to come (log 20). -/
def State.resetEvent (s : State) : State :=
  { State.reset with
    params := s.params, keysHeld := s.keysHeld, rnd := s.rnd, inputs := s.inputs, draws := s.draws }

/-- The longest ROM that fits: 3584 bytes (R363). -/
def romCapacity : Nat := Config.memSize - Config.progBase

/-- A load that fails (R363): the core stays as it was, and the error is reported to the host (log 11). -/
def State.reportLoadError (s : State) : State := { s with loadErrors := s.loadErrors + 1 }

/-- Load a ROM (R363): copy it to 0x200 where it fits, without the check of R67; else the load fails. -/
def State.load (s : State) (rom : List Byte) : State :=
  if romCapacity < rom.length then s.reportLoadError else s.storeBytes Config.progBase rom

/-- The load event (R363, R364): it has a meaning before the first step since reset only. -/
def State.loadEvent (s : State) (rom : List Byte) : Host.Outcome State Fault Refusal :=
  if s.started then .refused .lateLoad else .next (s.load rom)

/-- One 60 Hz decrement of a timer, floor at zero (R28). -/
def decrement (b : Byte) : Byte := if b = 0 then 0 else b - 1

/-- Both timers decay by one tick (R28). -/
def State.decay (s : State) : State := (s.setDt (decrement s.dt)).setSt (decrement s.st)

/-- The tick event in each run state (R28, R36). -/
def State.tick (s : State) : State :=
  match s.runState with
  | .run => s.decay
  | .awaitKey =>
    match s.params.timersInKeyWait with
    | .frozen => s
    | .running => s.decay
  | .faulted => s

/-- Complete a pending FX0A with key k (R284). -/
def State.completeWait (s : State) (k : Key) : State :=
  { (s.setReg s.waitReg (BitVec.ofNat 8 k.val)).advance with runState := .run }

/-- The key_press event: it only has an effect in AWAIT_KEY (R284, R285). -/
def State.keyPress (s : State) (k : Key) : State :=
  match s.runState with
  | .run => s
  | .awaitKey => s.completeWait k
  | .faulted => s

/-- The host drives the keys_held level (R39). -/
def State.driveKeys (s : State) (level : BitVec 16) : State := { s with keysHeld := some level }

/-- The host puts a byte on rnd for the next CXNN (R39). -/
def State.driveRnd (s : State) (b : Byte) : State := { s with rnd := some b }

/-- The present_ack event clears dirty (R32, R39; log 14). -/
def State.presentAck (s : State) : State := s.setDirty false

end Sys2Proof.Machine
end

