-- ==== Sys2Proof/Machine/Cycle.lean ====
section
/-! DEFINITION. The execution step of R120 and the handling of one port event. -/

namespace Sys2Proof.Machine

/-- IllegalInstruction(w) (R122). -/
def illegalTrap (w : Word) : Trap := ⟨.illegalInstruction, w.setWidth 17⟩

/-- Fetch, decode, execute (R120, R121, R122). -/
def State.runCycle (s : State) : Host.Outcome State Fault Refusal :=
  match s.memRead16 s.pc.toNat with
  | .error t => .next (s.raise t)
  | .ok w =>
    match decode w with
    | none => .next (s.raise (illegalTrap w))
    | some i => exec i s

/-- The step event: one instruction in RUN, nothing in AWAIT_KEY and FAULTED (R36, R120). -/
def State.stepEvent (s : State) : Host.Outcome State Fault Refusal :=
  match s.runState with
  | .run => s.setStarted.runCycle
  | .awaitKey => .next s
  | .faulted => .next s

/-- Handle one port event to completion (R39, R340). -/
def State.handle (s : State) : Event → Host.Outcome State Fault Refusal
  | .reset => .next s.resetEvent
  | .load rom => s.loadEvent rom
  | .step => s.stepEvent
  | .tick => .next s.tick
  | .keysHeld level => .next (s.driveKeys level)
  | .keyPress k => .next (s.keyPress k)
  | .rnd b => .next (s.driveRnd b)
  | .presentAck => .next s.presentAck

/-- Take the first event of the host's list; with none listed the event is a step (log 5). -/
def State.deliver (s : State) : Host.Outcome State Fault Refusal :=
  match s.inputs with
  | [] => s.stepEvent
  | e :: es => (s.setInputs es).handle e

/-- Where an instruction placed from outside goes: at pc where a fetch can reach it, else at 0x200. -/
def State.placePc (s : State) : Word := if s.pc.toNat + 1 < Config.memSize then s.pc else 0x200

/-- Place an instruction word where the next step fetches, in RUN, with a step as the next event
(log 12). -/
def State.placeWord (s : State) (w : Word) : State :=
  { (s.storeBytes s.placePc.toNat (bytesOfWord w)) with pc := s.placePc, runState := .run, inputs := [] }

end Sys2Proof.Machine
end

