-- ==== Sys2Proof/Machine/Step.lean ====
section
/-! DEFINITION. One step of the machine, and placing an instruction where the step fetches it. -/

namespace Sys2Proof.Machine

/-- One step: the next port event, handled to completion (R120, R340; log 5). -/
def step (s : State) : Host.Outcome State Fault Refusal := s.deliver

/-- `s` with the instruction of the table's bits `w` placed so that the very next step runs it (log 12). -/
def State.withFetchWord (s : State) (nbits w : Nat) : State :=
  s.placeWord (BitVec.ofNat 16 (w % 2 ^ nbits))

end Sys2Proof.Machine
end

