-- ==== Sys2Proof/Safety.lean ====
section
/-! DEFINITION. The terms claims use: a safe run, the machine's invariant, the cells a sprite reaches, and what
each instruction may write. -/

namespace Sys2Proof.Machine

/-- A state a run may end in: the core is not FAULTED ("a faulted state is never a good final state",
decision D22). -/
def State.safe (s : State) : Bool := s.runState != .faulted

/-- A run of k steps from `s` that neither stops nor ends in FAULTED. FAULTED is left only by a reset
event (R324), so without one among the inputs no state on the way is FAULTED either. -/
def SafeRun (k : Nat) (s : State) : Prop := ∃ t, Sys2Proof.core.run k s = .next t ∧ t.safe = true

/-- What holds in every reachable state. -/
structure State.Inv (s : State) : Prop where
  /-- Memory keeps its canonical form, all of it inside the 4096 bytes (R34; log 15). -/
  memCanonical : Memory.wf s.base s.mem = true
  /-- The largest pc a run can produce is 0x10FE, from JP V0 (R126). -/
  pcBound : s.pc.toNat ≤ 0x10FE
  /-- Every stack entry is the address of a CALL that was fetched (R125, R126). -/
  stackBound : ∀ (k : Nat) (h : k < 16), s.stack[k].toNat ≤ 0xFFE
  /-- The fault registers are latched exactly in FAULTED (R37, R322). -/
  causeLatched : s.faultCause = .none ↔ s.runState ≠ .faulted
  /-- Without a fault the other fault registers hold their reset value (R37, R41). -/
  noFault : s.runState ≠ .faulted → s.faultPc = 0 ∧ s.faultInfo = 0
  /-- In FAULTED pc is the address of the instruction that faulted (R322). -/
  faultedPc : s.runState = .faulted → s.faultPc = s.pc
  /-- In AWAIT_KEY pc is still at the FX0A that waits, and wait_reg is its X (R36, R283). -/
  waitPending : s.runState = .awaitKey → s.memRead16 s.pc.toNat = .ok (encode (.ldVxK s.waitReg))
  /-- RUN is left only by a step (R36; log 10). -/
  runBeforeStart : s.started = false → s.runState = .run
  /-- With LOW_WRITE_POLICY = FAULT every byte below 0x200 holds its reset value (R62, R67). -/
  lowIntact : s.params.lowWritePolicy = .fault →
    ∀ a, a < Config.progBase → s.readByte a = resetByte s.params.font a

/-- The set bit in column c of row r of the sprite of n rows at I; column 0 is bit 7 of the row's byte
(R242, R243). -/
def State.spriteBit (s : State) (n : Nibble) (c r : Nat) : Bool :=
  decide (c < 8) && decide (r < n.toNat) && (s.readByte (s.I.toNat + r)).getLsbD (7 - c)

/-- A set bit drawn at column x and row y lands on the cell (u, v): as it is under CLIP, reduced mod 64
and mod 32 under WRAP, by its flat index under FLAT (R246, R247, R248). -/
def lands (edge : DrawEdge) (x y u v : Nat) : Prop :=
  match edge with
  | .clip => u = x ∧ v = y
  | .wrap => u = x % 64 ∧ v = y % 32
  | .flat => v * 64 + u = y * 64 + x

/-- DRW x y n reaches the cell (u, v): some set bit of the sprite lands there (the set S of R252). -/
def State.reaches (s : State) (x y : Reg) (n : Nibble) (u v : Nat) : Prop :=
  ∃ c r, s.spriteBit n c r = true ∧
    lands s.params.drawEdge ((s.reg x).toNat + c) ((s.reg y).toNat + r) u v

/-- The word `w` is the one encoding of the instruction `i` (R93, R102). -/
def Encodes (w : Word) (i : Instr) : Prop := decode w = some i ∧ encode i = w

/-- The registers an instruction writes (R20, R21 and the instruction's own rule): its X, VF where it
writes a flag, V0 to VX for FX65. FX0A writes its X only when a key press completes it (R284). -/
def writesReg : Instr → Reg → Bool
  | .ldImm x _, r => r == x
  | .addImm x _, r => r == x
  | .ldReg x _, r => r == x
  | .orReg x _, r => r == x
  | .andReg x _, r => r == x
  | .xorReg x _, r => r == x
  | .addReg x _, r => r == x || r == VF
  | .sub x _, r => r == x || r == VF
  | .shr x _, r => r == x || r == VF
  | .subn x _, r => r == x || r == VF
  | .shl x _, r => r == x || r == VF
  | .rnd x _, r => r == x
  | .drw _ _ _, r => r == VF
  | .ldVxDt x, r => r == x
  | .addI _, r => r == VF
  | .ldVxMem x, r => decide (r ≤ x)
  | .cls, _ => false
  | .ret, _ => false
  | .sys _, _ => false
  | .jp _, _ => false
  | .call _, _ => false
  | .seImm _ _, _ => false
  | .sneImm _ _, _ => false
  | .seReg _ _, _ => false
  | .sneReg _ _, _ => false
  | .ldI _, _ => false
  | .jpV0 _, _ => false
  | .skp _, _ => false
  | .sknp _, _ => false
  | .ldVxK _, _ => false
  | .ldDtVx _, _ => false
  | .ldStVx _, _ => false
  | .ldF _, _ => false
  | .ldB _, _ => false
  | .ldMemVx _, _ => false

/-- How many bytes an instruction stores, from I on (R71). -/
def storedBytes : Instr → Nat
  | .ldB _ => 3
  | .ldMemVx x => x.val + 1
  | .cls => 0
  | .ret => 0
  | .sys _ => 0
  | .jp _ => 0
  | .call _ => 0
  | .seImm _ _ => 0
  | .sneImm _ _ => 0
  | .seReg _ _ => 0
  | .ldImm _ _ => 0
  | .addImm _ _ => 0
  | .ldReg _ _ => 0
  | .orReg _ _ => 0
  | .andReg _ _ => 0
  | .xorReg _ _ => 0
  | .addReg _ _ => 0
  | .sub _ _ => 0
  | .shr _ _ => 0
  | .subn _ _ => 0
  | .shl _ _ => 0
  | .sneReg _ _ => 0
  | .ldI _ => 0
  | .jpV0 _ => 0
  | .rnd _ _ => 0
  | .drw _ _ _ => 0
  | .skp _ => 0
  | .sknp _ => 0
  | .ldVxDt _ => 0
  | .ldVxK _ => 0
  | .ldDtVx _ => 0
  | .ldStVx _ => 0
  | .addI _ => 0
  | .ldF _ => 0
  | .ldVxMem _ => 0

/-- The faults that the rule of an instruction lists, besides the fetch's (R325). -/
def mayRaise : Instr → List Cause
  | .ret => [.stackUnderflowFault]
  | .call _ => [.stackOverflowFault]
  | .drw _ _ _ => [.addressFault, .drawBoundsFault]
  | .skp _ => [.keyIndexFault]
  | .sknp _ => [.keyIndexFault]
  | .ldB _ => [.addressFault, .reservedWriteFault]
  | .ldMemVx _ => [.addressFault, .reservedWriteFault]
  | .ldVxMem _ => [.addressFault]
  | .cls => []
  | .sys _ => []
  | .jp _ => []
  | .seImm _ _ => []
  | .sneImm _ _ => []
  | .seReg _ _ => []
  | .ldImm _ _ => []
  | .addImm _ _ => []
  | .ldReg _ _ => []
  | .orReg _ _ => []
  | .andReg _ _ => []
  | .xorReg _ _ => []
  | .addReg _ _ => []
  | .sub _ _ => []
  | .shr _ _ => []
  | .subn _ _ => []
  | .shl _ _ => []
  | .sneReg _ _ => []
  | .ldI _ => []
  | .jpV0 _ => []
  | .rnd _ _ => []
  | .ldVxDt _ => []
  | .ldVxK _ => []
  | .ldDtVx _ => []
  | .ldStVx _ => []
  | .addI _ => []
  | .ldF _ => []

/-- The words that R98 to R101 call ILLEGAL, written from those rules: families 5 and 9 with a low nibble
other than 0, family 8 with an unhandled low nibble, families E and F with an unhandled low byte. -/
def illegalWord (w : Word) : Prop :=
  ((fieldT w = 0x5#4 ∨ fieldT w = 0x9#4) ∧ fieldN w ≠ 0#4) ∨
  (fieldT w = 0x8#4 ∧ fieldN w ∈ [0x8#4, 0x9#4, 0xA#4, 0xB#4, 0xC#4, 0xD#4, 0xF#4]) ∨
  (fieldT w = 0xE#4 ∧ fieldNN w ∉ [0x9E#8, 0xA1#8]) ∨
  (fieldT w = 0xF#4 ∧
    fieldNN w ∉ [0x07#8, 0x0A#8, 0x15#8, 0x18#8, 0x1E#8, 0x29#8, 0x33#8, 0x55#8, 0x65#8])

end Sys2Proof.Machine
end

