-- ==== Sys2Proof/Certificates/Slice0/Obligations.lean ====
section
/-! DEFINITION. The statements for the provers. A frame is written as an equation: the next state is the old one
with the named fields replaced, so every field that is not named is unchanged. -/

open Sys2Proof Sys2Proof.Machine

/-! ## Families 0, 1 and 2 -/

/-- R140. -/
def Obligations.ClearDisplayClearsEveryCell : Prop :=
  Encodes 0x00E0#16 .cls ∧
  ∀ s : State, ∃ t, exec .cls s = .next t ∧
    (∀ x y, x < 64 → y < 32 → t.pixel x y = false) ∧
    t = { s with fb := t.fb, dirty := true, pc := s.pc + 2 } ∧
    ∀ a, t.readByte a = s.readByte a

/-- R142, for the words of R142: those with T = 0 other than 00E0 and 00EE. -/
def Obligations.SysOnlyAdvances : Prop :=
  ∀ nnn : Addr12, nnn ≠ 0x0E0#12 → nnn ≠ 0x0EE#12 →
    Encodes (wordAddr 0x0#4 nnn) (.sys nnn) ∧
    ∀ s : State, exec (.sys nnn) s = .next { s with pc := s.pc + 2 }

/-- R143. -/
def Obligations.JumpGoesToAddress : Prop :=
  ∀ nnn : Addr12, Encodes (wordAddr 0x1#4 nnn) (.jp nnn) ∧
    ∀ s : State, exec (.jp nnn) s = .next { s with pc := nnn.setWidth 16 }

/-- CALL in both cases; the fault clause is the spec's decision D4. -/
def Obligations.CallPushesItsOwnAddress : Prop :=
  ∀ nnn : Addr12, Encodes (wordAddr 0x2#4 nnn) (.call nnn) ∧ ∀ s : State,
    (s.sp.val < 16 → ∃ t, exec (.call nnn) s = .next t ∧
      (∀ (k : Nat) (h : k < 16), t.stack[k] = if k = s.sp.val then s.pc else s.stack[k]) ∧
      t.sp.val = s.sp.val + 1 ∧
      t = { s with stack := t.stack, sp := t.sp, pc := nnn.setWidth 16 } ∧
      ∀ a, t.readByte a = s.readByte a) ∧
    (s.sp.val = 16 → exec (.call nnn) s = .next { s with
      runState := .faulted, faultCause := .stackOverflowFault, faultPc := s.pc,
      faultInfo := (wordAddr 0x2#4 nnn).setWidth 17 })

/-- RET in both cases; the fault clause is the spec's decision D5, the added 2 its decision D6. -/
def Obligations.ReturnPopsAndAdvances : Prop :=
  Encodes 0x00EE#16 .ret ∧ ∀ s : State,
    (∀ h : 0 < s.sp.val, ∃ t, exec .ret s = .next t ∧
      t.sp.val = s.sp.val - 1 ∧
      t.pc = s.stack[s.sp.val - 1]'(by have := s.sp.isLt; omega) + 2 ∧
      t = { s with sp := t.sp, pc := t.pc } ∧
      ∀ a, t.readByte a = s.readByte a) ∧
    (s.sp.val = 0 → exec .ret s = .next { s with
      runState := .faulted, faultCause := .stackUnderflowFault, faultPc := s.pc,
      faultInfo := 0x00EE#17 })

/-- A return from any state that kept the stack goes on after the CALL (R125, decision D6). -/
def Obligations.ReturnResumesAfterTheCall : Prop :=
  ∀ (nnn : Addr12) (s : State), s.sp.val < 16 → ∃ t, exec (.call nnn) s = .next t ∧
    ∀ t' : State, t'.stack = t.stack → t'.sp = t.sp → ∃ u, exec .ret t' = .next u ∧
      u.pc = s.pc + 2 ∧ u.sp = s.sp ∧ u = { t' with sp := u.sp, pc := u.pc }

/-! ## Families 3, 4, 5 and 9 -/

/-- R160, R161. -/
def Obligations.SkipsCompareWithImmediate : Prop :=
  ∀ (x : Reg) (nn : Byte),
    Encodes (wordRegImm 0x3#4 x nn) (.seImm x nn) ∧ Encodes (wordRegImm 0x4#4 x nn) (.sneImm x nn) ∧
    ∀ s : State,
      exec (.seImm x nn) s = .next { s with pc := if s.reg x = nn then s.pc + 4 else s.pc + 2 } ∧
      exec (.sneImm x nn) s = .next { s with pc := if s.reg x ≠ nn then s.pc + 4 else s.pc + 2 }

/-- R162 and R163; that a low nibble other than 0 is ILLEGAL is the spec's decision D14. -/
def Obligations.SkipsCompareRegisters : Prop :=
  ∀ x y : Reg,
    Encodes (wordRegReg 0x5#4 x y 0x0#4) (.seReg x y) ∧ Encodes (wordRegReg 0x9#4 x y 0x0#4) (.sneReg x y) ∧
    (∀ n : Nibble, n ≠ 0x0#4 →
      decode (wordRegReg 0x5#4 x y n) = none ∧ decode (wordRegReg 0x9#4 x y n) = none) ∧
    ∀ s : State,
      exec (.seReg x y) s = .next { s with pc := if s.reg x = s.reg y then s.pc + 4 else s.pc + 2 } ∧
      exec (.sneReg x y) s = .next { s with pc := if s.reg x ≠ s.reg y then s.pc + 4 else s.pc + 2 }

/-! ## Families 6 and 7 -/

/-- R180. -/
def Obligations.LoadImmediateWritesRegister : Prop :=
  ∀ (x : Reg) (nn : Byte), Encodes (wordRegImm 0x6#4 x nn) (.ldImm x nn) ∧
    ∀ s : State, ∃ t, exec (.ldImm x nn) s = .next t ∧
      (∀ y, t.reg y = if y = x then nn else s.reg y) ∧
      t = { s with v := t.v, pc := s.pc + 2 } ∧ ∀ a, t.readByte a = s.readByte a

/-- R181. -/
def Obligations.AddImmediateWrapsWithoutFlag : Prop :=
  ∀ (x : Reg) (nn : Byte), Encodes (wordRegImm 0x7#4 x nn) (.addImm x nn) ∧
    ∀ s : State, ∃ t, exec (.addImm x nn) s = .next t ∧
      (t.reg x).toNat = ((s.reg x).toNat + nn.toNat) % 256 ∧
      (∀ y, y ≠ x → t.reg y = s.reg y) ∧
      t = { s with v := t.v, pc := s.pc + 2 } ∧ ∀ a, t.readByte a = s.readByte a

/-! ## Family 8 -/

/-- R191, R192, R193, R194. -/
def Obligations.LogicOperationsWriteOnlyVx : Prop :=
  ∀ x y : Reg,
    Encodes (wordRegReg 0x8#4 x y 0x0#4) (.ldReg x y) ∧ Encodes (wordRegReg 0x8#4 x y 0x1#4) (.orReg x y) ∧
    Encodes (wordRegReg 0x8#4 x y 0x2#4) (.andReg x y) ∧ Encodes (wordRegReg 0x8#4 x y 0x3#4) (.xorReg x y) ∧
    ∀ (s : State) (i : Instr) (r : Byte),
      (i = .ldReg x y ∧ r = s.reg y) ∨ (i = .orReg x y ∧ r = s.reg x ||| s.reg y) ∨
      (i = .andReg x y ∧ r = s.reg x &&& s.reg y) ∨ (i = .xorReg x y ∧ r = s.reg x ^^^ s.reg y) →
      ∃ t, exec i s = .next t ∧ (∀ z, t.reg z = if z = x then r else s.reg z) ∧
        t = { s with v := t.v, pc := s.pc + 2 } ∧ ∀ a, t.readByte a = s.readByte a

/-- R195: the flag is the carry of the exact sum, and it is what VF holds when X = 15. -/
def Obligations.AddSetsCarry : Prop :=
  ∀ x y : Reg, Encodes (wordRegReg 0x8#4 x y 0x4#4) (.addReg x y) ∧
    ∀ s : State, ∃ t, exec (.addReg x y) s = .next t ∧
      t.reg VF = (if (s.reg x).toNat + (s.reg y).toNat > 255 then 1 else 0) ∧
      (x ≠ VF → (t.reg x).toNat = ((s.reg x).toNat + (s.reg y).toNat) % 256) ∧
      (∀ z, z ≠ x → z ≠ VF → t.reg z = s.reg z) ∧
      t = { s with v := t.v, pc := s.pc + 2 } ∧ ∀ a, t.readByte a = s.readByte a

/-- R196, R198: the flag is a strict comparison of the operands, and it is what VF holds when X = 15. -/
def Obligations.SubtractSetsStrictComparison : Prop :=
  ∀ x y : Reg,
    Encodes (wordRegReg 0x8#4 x y 0x5#4) (.sub x y) ∧ Encodes (wordRegReg 0x8#4 x y 0x7#4) (.subn x y) ∧
    ∀ (s : State) (i : Instr) (a b : Byte),
      (i = .sub x y ∧ a = s.reg x ∧ b = s.reg y) ∨ (i = .subn x y ∧ a = s.reg y ∧ b = s.reg x) →
      ∃ t, exec i s = .next t ∧
        t.reg VF = (if a.toNat > b.toNat then 1 else 0) ∧
        (x ≠ VF → ((t.reg x).toNat : Int) = ((a.toNat : Int) - (b.toNat : Int)) % 256) ∧
        (∀ z, z ≠ x → z ≠ VF → t.reg z = s.reg z) ∧
        t = { s with v := t.v, pc := s.pc + 2 } ∧ ∀ c, t.readByte c = s.readByte c

/-- SHR and SHL under both values of SHIFT_SOURCE (R197, R199; which register is shifted is the spec's
decision D8). -/
def Obligations.ShiftsMoveOneBitIntoVF : Prop :=
  ∀ x y : Reg,
    Encodes (wordRegReg 0x8#4 x y 0x6#4) (.shr x y) ∧ Encodes (wordRegReg 0x8#4 x y 0xE#4) (.shl x y) ∧
    ∀ (s : State) (src : Byte),
      (s.params.shiftSource = .vx ∧ src = s.reg x) ∨ (s.params.shiftSource = .vy ∧ src = s.reg y) →
      (∃ t, exec (.shr x y) s = .next t ∧
        (t.reg VF).toNat = src.toNat % 2 ∧ (x ≠ VF → (t.reg x).toNat = src.toNat / 2) ∧
        (∀ z, z ≠ x → z ≠ VF → t.reg z = s.reg z) ∧
        t = { s with v := t.v, pc := s.pc + 2 } ∧ ∀ a, t.readByte a = s.readByte a) ∧
      (∃ t, exec (.shl x y) s = .next t ∧
        (t.reg VF).toNat = src.toNat / 128 ∧ (x ≠ VF → (t.reg x).toNat = src.toNat * 2 % 256) ∧
        (∀ z, z ≠ x → z ≠ VF → t.reg z = s.reg z) ∧
        t = { s with v := t.v, pc := s.pc + 2 } ∧ ∀ a, t.readByte a = s.readByte a)

/-! ## Families A, B and C -/

/-- R220. -/
def Obligations.LoadIndexImmediate : Prop :=
  ∀ nnn : Addr12, Encodes (wordAddr 0xA#4 nnn) (.ldI nnn) ∧
    ∀ s : State, exec (.ldI nnn) s = .next { s with I := nnn.setWidth 16, pc := s.pc + 2 }

/-- R224: the sum is exact, at most 0x10FE. -/
def Obligations.JumpWithOffsetAddsV0 : Prop :=
  ∀ nnn : Addr12, Encodes (wordAddr 0xB#4 nnn) (.jpV0 nnn) ∧
    ∀ s : State, ∃ t, exec (.jpV0 nnn) s = .next t ∧
      t.pc.toNat = nnn.toNat + (s.reg 0).toNat ∧ t = { s with pc := t.pc } ∧
      ∀ a, t.readByte a = s.readByte a

/-- RND: the byte of the rnd port AND the mask, the port's byte being any byte (R228, decision D20), and the
event that puts a byte on the port changes nothing else (R39). The port's free value, its counter and the list
of events are the model's choice (log 6, log 8, log 5), and so is that the event acts in every run state (log
14); nothing is said of the free value. -/
def Obligations.RandomIsMaskedPortByte : Prop :=
  ∀ (x : Reg) (nn : Byte), Encodes (wordRegImm 0xC#4 x nn) (.rnd x nn) ∧ ∀ s : State,
    (∃ t, exec (.rnd x nn) s = .next t ∧
      (∀ z, t.reg z = if z = x then s.rndByte &&& nn else s.reg z) ∧
      t = { s with v := t.v, pc := s.pc + 2, rnd := none, draws := s.draws + 1 } ∧
      ∀ a, t.readByte a = s.readByte a) ∧
    ∀ b : Byte, (s.driveRnd b).rndByte = b ∧
      ∀ es, s.inputs = .rnd b :: es → step s = .next { s.driveRnd b with inputs := es } ∧
        s.driveRnd b = { s with rnd := some b }

/-! ## Family D -/

/-- DRW when its checks pass, for every DRAW_EDGE: exactly the reached cells flip, VF tells whether one of
them was set, dirty is set (R240 to R251, decisions D10, D11, D12). -/
def Obligations.DrawFlipsExactlyTheReachedCells : Prop :=
  ∀ (x y : Reg) (n : Nibble), Encodes (wordRegReg 0xD#4 x y n) (.drw x y n) ∧ ∀ s : State,
    (n = 0x0#4 ∨ s.I.toNat + n.toNat ≤ 0x1000) →
    (s.params.drawEdge = .flat → ∀ c r, s.spriteBit n c r = true →
      ((s.reg y).toNat + r) * 64 + ((s.reg x).toNat + c) < 2048) →
    ∃ t, exec (.drw x y n) s = .next t ∧
      (∀ u v, u < 64 → v < 32 → (t.pixel u v ≠ s.pixel u v ↔ s.reaches x y n u v)) ∧
      ((∃ u v, u < 64 ∧ v < 32 ∧ s.reaches x y n u v ∧ s.pixel u v = true) → t.reg VF = 1) ∧
      ((¬ ∃ u v, u < 64 ∧ v < 32 ∧ s.reaches x y n u v ∧ s.pixel u v = true) → t.reg VF = 0) ∧
      (∀ z, z ≠ VF → t.reg z = s.reg z) ∧
      t = { s with v := t.v, fb := t.fb, dirty := true, pc := s.pc + 2 } ∧
      ∀ a, t.readByte a = s.readByte a

/-- DRW with a row outside memory: AddressFault with the lowest such address, nothing drawn (R242, R66,
decision D2). -/
def Obligations.DrawOutsideMemoryFaults : Prop :=
  ∀ (s : State) (x y : Reg) (n : Nibble), n ≠ 0x0#4 → 0x1000 < s.I.toNat + n.toNat →
    exec (.drw x y n) s = .next { s with
      runState := .faulted, faultCause := .addressFault, faultPc := s.pc,
      faultInfo := BitVec.ofNat 17 (max s.I.toNat 0x1000) }

/-- DRW under FLAT with a set bit past the array: DrawBoundsFault with the lowest such index, nothing drawn
(R247, decisions D10, D32). -/
def Obligations.FlatDrawPastTheArrayFaults : Prop :=
  ∀ (s : State) (x y : Reg) (n : Nibble), s.I.toNat + n.toNat ≤ 0x1000 → s.params.drawEdge = .flat →
    (∃ c r, s.spriteBit n c r = true ∧ 2048 ≤ ((s.reg y).toNat + r) * 64 + ((s.reg x).toNat + c)) →
    ∃ c r, s.spriteBit n c r = true ∧ 2048 ≤ ((s.reg y).toNat + r) * 64 + ((s.reg x).toNat + c) ∧
      (∀ c' r', s.spriteBit n c' r' = true →
        2048 ≤ ((s.reg y).toNat + r') * 64 + ((s.reg x).toNat + c') →
        ((s.reg y).toNat + r) * 64 + ((s.reg x).toNat + c) ≤
          ((s.reg y).toNat + r') * 64 + ((s.reg x).toNat + c')) ∧
      exec (.drw x y n) s = .next { s with
        runState := .faulted, faultCause := .drawBoundsFault, faultPc := s.pc,
        faultInfo := BitVec.ofNat 17 (((s.reg y).toNat + r) * 64 + ((s.reg x).toNat + c)) }

/-- Two draws of one sprite at one place, its inputs unchanged in between, restore the display; VF tells
after the first whether a reached cell was set, after the second whether one was clear (R252). -/
def Obligations.DoubleDrawRestoresDisplay : Prop :=
  ∀ (s t s' u : State) (x y : Reg) (n : Nibble),
    exec (.drw x y n) s = .next t → t.runState ≠ .faulted →
    s'.fb = t.fb → s'.I = s.I → s'.params = s.params → s'.reg x = s.reg x → s'.reg y = s.reg y →
    (∀ a, s'.readByte a = s.readByte a) → exec (.drw x y n) s' = .next u →
    u.fb = s.fb ∧
    (t.reg VF = 1 ↔ ∃ a b, a < 64 ∧ b < 32 ∧ s.reaches x y n a b ∧ s.pixel a b = true) ∧
    (u.reg VF = 1 ↔ ∃ a b, a < 64 ∧ b < 32 ∧ s.reaches x y n a b ∧ s.pixel a b = false)

/-- CLS, then a draw whose checks pass: the display is the sprite alone and VF = 0 (R253). -/
def Obligations.ClearThenDrawShowsTheSpriteAlone : Prop :=
  ∀ (s t u : State) (x y : Reg) (n : Nibble),
    exec .cls s = .next t → exec (.drw x y n) t = .next u → u.runState = s.runState →
    s.runState ≠ .faulted →
    (∀ a b, a < 64 → b < 32 → (u.pixel a b = true ↔ s.reaches x y n a b)) ∧ u.reg VF = 0

/-! ## Family E -/

/-- SKP and SKNP for a key index below 16, at the level that keys_held has (R270, R271, R272), and the event
that drives the level changes nothing else (R39). The port's free value, its counter and the list of events are
the model's choice (log 7, log 8, log 5), and so is that the event acts in every run state (log 14); nothing is
said of the free value. -/
def Obligations.KeySkipsFollowTheKeyLevel : Prop :=
  ∀ x : Reg, Encodes (wordRegImm 0xE#4 x 0x9E#8) (.skp x) ∧ Encodes (wordRegImm 0xE#4 x 0xA1#8) (.sknp x) ∧
    ∀ s : State, ((s.reg x).toNat < 16 →
      exec (.skp x) s = .next { s with
        pc := if s.keyLevel.getLsbD (s.reg x).toNat then s.pc + 4 else s.pc + 2, draws := s.draws + 1 } ∧
      exec (.sknp x) s = .next { s with
        pc := if s.keyLevel.getLsbD (s.reg x).toNat then s.pc + 2 else s.pc + 4, draws := s.draws + 1 }) ∧
      ∀ level, (s.driveKeys level).keyLevel = level ∧
        ∀ es, s.inputs = .keysHeld level :: es → step s = .next { s.driveKeys level with inputs := es } ∧
          s.driveKeys level = { s with keysHeld := some level }

/-- SKP and SKNP with a key index of 16 or more (R273, decision D15). -/
def Obligations.KeyIndexOutOfRangeFaults : Prop :=
  ∀ (s : State) (x : Reg) (i : Instr), i = .skp x ∨ i = .sknp x → 16 ≤ (s.reg x).toNat →
    exec i s = .next { s with
      runState := .faulted, faultCause := .keyIndexFault, faultPc := s.pc,
      faultInfo := (s.reg x).setWidth 17 }

/-! ## Family F -/

/-- R280, R286, R287. -/
def Obligations.TimerInstructionsMoveBytes : Prop :=
  ∀ x : Reg,
    Encodes (wordRegImm 0xF#4 x 0x07#8) (.ldVxDt x) ∧ Encodes (wordRegImm 0xF#4 x 0x15#8) (.ldDtVx x) ∧
    Encodes (wordRegImm 0xF#4 x 0x18#8) (.ldStVx x) ∧ ∀ s : State,
      (∃ t, exec (.ldVxDt x) s = .next t ∧ (∀ z, t.reg z = if z = x then s.dt else s.reg z) ∧
        t = { s with v := t.v, pc := s.pc + 2 } ∧ ∀ a, t.readByte a = s.readByte a) ∧
      exec (.ldDtVx x) s = .next { s with dt := s.reg x, pc := s.pc + 2 } ∧
      exec (.ldStVx x) s = .next { s with st := s.reg x, pc := s.pc + 2 }

/-- FX0A's entry (R283). That force_present is held as a count of its pulses is the model's choice
(log 9). -/
def Obligations.KeyWaitEntersAwaitKey : Prop :=
  ∀ x : Reg, Encodes (wordRegImm 0xF#4 x 0x0A#8) (.ldVxK x) ∧
    ∀ s : State, exec (.ldVxK x) s = .next { s with
      waitReg := x, runState := .awaitKey, forcePresents := s.forcePresents + 1 }

/-- A key press in AWAIT_KEY completes FX0A (R284). That the host's events are listed in State is the
model's choice (log 5). -/
def Obligations.KeyPressCompletesTheWait : Prop :=
  ∀ (s : State) (k : Key) (es : List Event), s.runState = .awaitKey → s.inputs = .keyPress k :: es →
    ∃ t, step s = .next t ∧ (∀ z, (t.reg z).toNat = if z = s.waitReg then k.val else (s.reg z).toNat) ∧
      t = { s with v := t.v, pc := s.pc + 2, runState := .run, inputs := es }

/-- The wait ends at a key press or a reset and at nothing else; until then no register, no cell and no pc
changes, under FROZEN no timer, and no byte but by a load before the first step, which no run into the wait
has (R285, R36, decisions D17, D26, D36; the record of a first step is the model's, log 10, the list of events
too, log 5). -/
def Obligations.OnlyKeyPressOrResetEndsTheWait : Prop :=
  ∀ s t : State, s.runState = .awaitKey → step s = .next t →
    (∀ k es, s.inputs ≠ .keyPress k :: es) → (∀ es, s.inputs ≠ .reset :: es) →
    t.runState = .awaitKey ∧ t.waitReg = s.waitReg ∧ t.v = s.v ∧ t.pc = s.pc ∧ t.I = s.I ∧
      t.fb = s.fb ∧ t.stack = s.stack ∧ t.sp = s.sp ∧
      (s.started = true ∨ (∀ rom es, s.inputs ≠ .load rom :: es) → t.mem = s.mem) ∧
      (s.params.timersInKeyWait = .frozen → t.dt = s.dt ∧ t.st = s.st) ∧
      (s.inputs = [] → t = s) ∧ ∀ es, s.inputs = .step :: es → t = { s with inputs := es }

/-- ADD I under both values of FX1E_VF_CLEAR (R288, decision D9). -/
def Obligations.AddIndexKeeps16BitsAndFlagsTheExactSum : Prop :=
  ∀ x : Reg, Encodes (wordRegImm 0xF#4 x 0x1E#8) (.addI x) ∧
    ∀ s : State, ∃ t, exec (.addI x) s = .next t ∧
      t.I.toNat = (s.I.toNat + (s.reg x).toNat) % 65536 ∧
      (s.I.toNat + (s.reg x).toNat > 0xFFF → t.reg VF = 1) ∧
      (s.I.toNat + (s.reg x).toNat ≤ 0xFFF →
        t.reg VF = if s.params.fx1eVfClear then 0 else s.reg VF) ∧
      (∀ z, z ≠ VF → t.reg z = s.reg z) ∧
      t = { s with v := t.v, I := t.I, pc := s.pc + 2 } ∧ ∀ a, t.readByte a = s.readByte a

/-- LD F: the whole byte times 5; for a digit, the glyph lies inside the font (R291, R63, decision D31). -/
def Obligations.GlyphAddressIsFiveTimesTheByte : Prop :=
  ∀ x : Reg, Encodes (wordRegImm 0xF#4 x 0x29#8) (.ldF x) ∧
    ∀ s : State, ∃ t, exec (.ldF x) s = .next t ∧
      t.I.toNat = (s.reg x).toNat * 5 ∧ ((s.reg x).toNat < 16 → t.I.toNat + 5 ≤ 80) ∧
      t = { s with I := t.I, pc := s.pc + 2 } ∧ ∀ a, t.readByte a = s.readByte a

/-- LD B: the three decimal digits of Vx at I, I + 1, I + 2, every other byte unchanged (R294; when the store
is allowed rests on decisions D2, D3). The canonical form of memory is the model's (log 15). -/
def Obligations.StoreDecimalDigits : Prop :=
  ∀ x : Reg, Encodes (wordRegImm 0xF#4 x 0x33#8) (.ldB x) ∧ ∀ s : State,
    Memory.wf s.base s.mem = true → s.I.toNat + 3 ≤ 0x1000 →
    (s.params.lowWritePolicy = .perform ∨ 0x200 ≤ s.I.toNat) →
    ∃ t, exec (.ldB x) s = .next t ∧
      (s.reg x).toNat = 100 * (t.readByte s.I.toNat).toNat + 10 * (t.readByte (s.I.toNat + 1)).toNat +
        (t.readByte (s.I.toNat + 2)).toNat ∧
      (t.readByte s.I.toNat).toNat ≤ 2 ∧ (t.readByte (s.I.toNat + 1)).toNat ≤ 9 ∧
      (t.readByte (s.I.toNat + 2)).toNat ≤ 9 ∧
      (∀ a, a < s.I.toNat ∨ s.I.toNat + 3 ≤ a → t.readByte a = s.readByte a) ∧
      t = { s with mem := t.mem, pc := s.pc + 2 } ∧ Memory.wf t.base t.mem = true

/-- LD [I]: V0 to Vx at I and up, every other byte and I itself unchanged (R296, decision D16; when the
store is allowed rests on decisions D2, D3). The canonical form of memory is the model's (log 15). -/
def Obligations.StoreRegistersWritesTheBlock : Prop :=
  ∀ x : Reg, Encodes (wordRegImm 0xF#4 x 0x55#8) (.ldMemVx x) ∧ ∀ s : State,
    Memory.wf s.base s.mem = true → s.I.toNat + x.val + 1 ≤ 0x1000 →
    (s.params.lowWritePolicy = .perform ∨ 0x200 ≤ s.I.toNat) →
    ∃ t, exec (.ldMemVx x) s = .next t ∧
      (∀ k : Reg, k ≤ x → t.readByte (s.I.toNat + k.val) = s.reg k) ∧
      (∀ a, a < s.I.toNat ∨ s.I.toNat + x.val + 1 ≤ a → t.readByte a = s.readByte a) ∧
      t = { s with mem := t.mem, pc := s.pc + 2 } ∧ Memory.wf t.base t.mem = true

/-- LD Vx, [I]: V0 to Vx from I and up, the other registers and I unchanged (R298, decision D16); outside
memory AddressFault and nothing loaded (R66, decision D2). -/
def Obligations.LoadRegistersReadsTheBlock : Prop :=
  ∀ x : Reg, Encodes (wordRegImm 0xF#4 x 0x65#8) (.ldVxMem x) ∧ ∀ s : State,
    (s.I.toNat + x.val + 1 ≤ 0x1000 → ∃ t, exec (.ldVxMem x) s = .next t ∧
      (∀ k : Reg, t.reg k = if k ≤ x then s.readByte (s.I.toNat + k.val) else s.reg k) ∧
      t = { s with v := t.v, pc := s.pc + 2 } ∧ ∀ a, t.readByte a = s.readByte a) ∧
    (0x1000 < s.I.toNat + x.val + 1 → exec (.ldVxMem x) s = .next { s with
      runState := .faulted, faultCause := .addressFault, faultPc := s.pc,
      faultInfo := BitVec.ofNat 17 (max s.I.toNat 0x1000) })

/-- FX33 and FX55 where the store is not allowed: AddressFault first, then ReservedWriteFault, and no byte is
written (R66, R67, R68, decisions D2, D3). -/
def Obligations.ForbiddenStoresFault : Prop :=
  ∀ (s : State) (i : Instr), 0 < storedBytes i →
    (0x1000 < s.I.toNat + storedBytes i → exec i s = .next { s with
      runState := .faulted, faultCause := .addressFault, faultPc := s.pc,
      faultInfo := BitVec.ofNat 17 (max s.I.toNat 0x1000) }) ∧
    (s.I.toNat + storedBytes i ≤ 0x1000 → s.params.lowWritePolicy = .fault → s.I.toNat < 0x200 →
      exec i s = .next { s with
        runState := .faulted, faultCause := .reservedWriteFault, faultPc := s.pc,
        faultInfo := s.I.setWidth 17 })

/-- FX55, then FX65 with the same X from a state that kept I, the parameters and memory, restores V0 to Vx
whatever the registers held in between (R296, R298). The canonical form of memory is the model's (log 15). -/
def Obligations.StoreThenLoadRestoresRegisters : Prop :=
  ∀ (s t t' : State) (x : Reg), Memory.wf s.base s.mem = true →
    exec (.ldMemVx x) s = .next t → t.runState ≠ .faulted →
    t'.mem = t.mem → t'.params = t.params → t'.I = t.I →
    ∃ u, exec (.ldVxMem x) t' = .next u ∧ (∀ k : Reg, k ≤ x → u.reg k = s.reg k) ∧
      ∀ k : Reg, x < k → u.reg k = t'.reg k

/-! ## Faults -/

/-- Fault entry changes the fault registers and run_state only, and each cause has its code (R321, R322,
decision D22). -/
def Obligations.FaultEntryLatchesOnlyTheFaultRegisters : Prop :=
  (∀ (s : State) (e : Trap), s.raise e = { s with
    faultCause := e.cause, faultPc := s.pc, faultInfo := e.info, runState := .faulted }) ∧
  [Cause.none, .illegalInstruction, .addressFault, .reservedWriteFault, .stackOverflowFault,
    .stackUnderflowFault, .keyIndexFault, .drawBoundsFault].map (fun c => c.code.toNat) =
    [0, 1, 2, 3, 4, 5, 6, 7]

/-- Every instruction either completes without entering FAULTED or enters it with nothing else changed, with
a cause its rule lists and fault_pc at its own address (R127, R322, R325, decision D22). -/
def Obligations.FaultsArePrecise : Prop :=
  ∀ (i : Instr) (s t : State), s.runState ≠ .faulted → exec i s = .next t → t.runState = .faulted →
    t.faultCause ∈ mayRaise i ∧ t = { s with
      faultCause := t.faultCause, faultPc := s.pc, faultInfo := t.faultInfo, runState := .faulted }

/-- No instruction is refused and none stops the model: exec always answers a next state (R129). -/
def Obligations.EveryInstructionAnswersANextState : Prop :=
  ∀ (i : Instr) (s : State), ∃ t, exec i s = .next t

/-- A step on an ILLEGAL word enters FAULTED with the word and its address, nothing else changed (R122,
decision D22). The next event is a step when none is listed, or when a step is listed first (log 5); the step
is recorded (log 10). -/
def Obligations.IllegalWordsFault : Prop :=
  ∀ (s : State) (es : List Event), s.runState = .run → (s.inputs = [] ∧ es = []) ∨ s.inputs = .step :: es →
    s.pc.toNat + 1 < 0x1000 →
    decode (wordOfBytes (s.readByte s.pc.toNat) (s.readByte (s.pc.toNat + 1))) = none →
    step s = .next { s with
      inputs := es, started := true, runState := .faulted, faultCause := .illegalInstruction, faultPc := s.pc,
      faultInfo := (wordOfBytes (s.readByte s.pc.toNat) (s.readByte (s.pc.toNat + 1))).setWidth 17 }

/-- A fetch outside memory enters FAULTED with the lowest address outside (R121, decisions D2, D30). The next
event is a step when none is listed, or when a step is listed first (log 5); the step is recorded (log 10). -/
def Obligations.FetchOutsideMemoryFaults : Prop :=
  ∀ (s : State) (es : List Event), s.runState = .run → (s.inputs = [] ∧ es = []) ∨ s.inputs = .step :: es →
    0x1000 ≤ s.pc.toNat + 1 →
    step s = .next { s with
      inputs := es, started := true, runState := .faulted, faultCause := .addressFault, faultPc := s.pc,
      faultInfo := BitVec.ofNat 17 (if s.pc.toNat = 0xFFF then 0x1000 else s.pc.toNat) }

/-- FAULTED is left by a reset event only, and in it steps, ticks and key presses change nothing (R36, R324,
decisions D22, D38). -/
def Obligations.FaultedIsTerminalUntilReset : Prop :=
  ∀ s t : State, s.runState = .faulted → step s = .next t → (∀ es, s.inputs ≠ .reset :: es) →
    t.runState = .faulted ∧ t.faultCause = s.faultCause ∧ t.faultPc = s.faultPc ∧
      t.faultInfo = s.faultInfo ∧
      ((s.inputs = [] → t = s) ∧
        ∀ e es, s.inputs = e :: es → e = .step ∨ e = .tick ∨ (∃ k, e = .keyPress k) →
          t = { s with inputs := es })

/-! ## Steps, events and reset -/

/-- A step in RUN whose fetch succeeds and decodes is exec of that instruction, with the big-endian word at
pc (R69, R120, R121); the step also records that one has been executed (log 10). The next event is a step
when none is listed, or when a step is listed first (log 5). -/
def Obligations.StepRunsTheDecodedInstruction : Prop :=
  ∀ (s : State) (i : Instr) (es : List Event), s.runState = .run → s.pc.toNat + 1 < 0x1000 →
    decode (wordOfBytes (s.readByte s.pc.toNat) (s.readByte (s.pc.toNat + 1))) = some i →
    (s.inputs = [] → step s = exec i { s with started := true }) ∧
    (s.inputs = .step :: es → step s = exec i { s with started := true, inputs := es })

/-- R28: a tick in RUN. That the host's events are listed in State is the model's choice (log 5). -/
def Obligations.TickDecrementsNonZeroTimers : Prop :=
  ∀ (s : State) (es : List Event), s.runState = .run → s.inputs = .tick :: es →
    ∃ t, step s = .next t ∧ t.dt.toNat = s.dt.toNat - 1 ∧ t.st.toNat = s.st.toNat - 1 ∧
      t = { s with dt := t.dt, st := t.st, inputs := es }

/-- A tick in the other run states, under both values of TIMERS_IN_KEY_WAIT, and a key press outside
AWAIT_KEY (R36, decisions D17, D37, D38). -/
def Obligations.TicksAndPressesInOtherRunStates : Prop :=
  ∀ (s : State) (es : List Event),
    (s.inputs = .tick :: es →
      (s.runState = .faulted → step s = .next { s with inputs := es }) ∧
      (s.runState = .awaitKey → s.params.timersInKeyWait = .frozen →
        step s = .next { s with inputs := es }) ∧
      (s.runState = .awaitKey → s.params.timersInKeyWait = .running → ∃ t, step s = .next t ∧
        t.dt.toNat = s.dt.toNat - 1 ∧ t.st.toNat = s.st.toNat - 1 ∧
        t = { s with dt := t.dt, st := t.st, inputs := es })) ∧
    ∀ k, s.inputs = .keyPress k :: es → s.runState ≠ .awaitKey → step s = .next { s with inputs := es }

/-- The state after a reset event, in every run state: the table of R41 (decision D19), and a load is accepted
again (R364). How the model records a first step, the pulses of force_present and the failed loads (logs 10, 9,
11), and what else the event leaves alone (log 20), are its choice. -/
def Obligations.ResetEventGivesTheResetValues : Prop :=
  ∀ (s : State) (es : List Event), s.inputs = .reset :: es → ∃ t, step s = .next t ∧
    (∀ x, t.reg x = 0) ∧ t.I = 0 ∧ t.pc = 0x200 ∧ (∀ (k : Nat) (h : k < 16), t.stack[k] = 0) ∧ t.sp = 0 ∧
    (∀ (a : Nat) (h : a < 80), t.readByte a = s.params.font[a]) ∧ (∀ a, 80 ≤ a → t.readByte a = 0) ∧
    (∀ u v, u < 64 → v < 32 → t.pixel u v = false) ∧ t.dt = 0 ∧ t.st = 0 ∧ t.dirty = false ∧
    t.runState = .run ∧ t.waitReg = 0 ∧ t.faultCause = .none ∧ t.faultPc = 0 ∧ t.faultInfo = 0 ∧
    t.started = false ∧ t.forcePresents = 0 ∧ t.loadErrors = 0 ∧
    t.params = s.params ∧ t.keysHeld = s.keysHeld ∧ t.rnd = s.rnd ∧ t.draws = s.draws ∧ t.inputs = es

/-- The load event: before the first step it copies the ROM to 0x200 and changes nothing else; a ROM that does
not fit changes nothing but the count of host load errors, which is the model's (log 11); after the first step
the load is refused (R363, R364, decision D21). That the first clause covers a second load before the first step,
and how a first step is recorded, are the model's choice (log 10), and so are the canonical form of memory (log
15) and the list of events (log 5). -/
def Obligations.LoadCopiesTheRomBeforeTheFirstStep : Prop :=
  ∀ (s : State) (rom : List Byte) (es : List Event), s.inputs = .load rom :: es →
    (s.started = false → rom.length ≤ 3584 → Memory.wf s.base s.mem = true → ∃ t, step s = .next t ∧
      (∀ (k : Nat) (h : k < rom.length), t.readByte (0x200 + k) = rom[k]) ∧
      (∀ a, a < 0x200 ∨ 0x200 + rom.length ≤ a → t.readByte a = s.readByte a) ∧
      t = { s with mem := t.mem, inputs := es } ∧ Memory.wf t.base t.mem = true) ∧
    (s.started = false → 3584 < rom.length →
      step s = .next { s with loadErrors := s.loadErrors + 1, inputs := es }) ∧
    (s.started = true → step s = .refused .lateLoad)

/-- present_ack clears dirty and nothing else, in every run state (R32, R39, decision D18; that it acts
in AWAIT_KEY and FAULTED too is log 14). -/
def Obligations.PresentAckClearsDirty : Prop :=
  ∀ (s : State) (es : List Event), s.inputs = .presentAck :: es →
    step s = .next { s with dirty := false, inputs := es }

/-! ## Frames over all instructions -/

/-- An instruction changes no register but those its rule names (R20, R21). -/
def Obligations.OnlyNamedRegistersChange : Prop :=
  ∀ (i : Instr) (s t : State) (r : Reg), exec i s = .next t → writesReg i r = false → t.reg r = s.reg r

/-- Which instructions write I, the stack, the timers, the display and the wait register, and that the fault
registers change in a fault only (R23, R25, R27, R30, R32, R35, R61). The clauses on the parameters (log 1), the
list of events (log 5), the keys_held port (log 7), the pulse count (log 9), the record of a first step (log 10)
and the count of failed loads (log 11) are about fields that are the model's choice. -/
def Obligations.SpecialRegistersChangeOnlyByTheirInstructions : Prop :=
  ∀ (i : Instr) (s t : State), exec i s = .next t →
    (t.I ≠ s.I → (∃ a, i = .ldI a) ∨ (∃ x, i = .addI x) ∨ ∃ x, i = .ldF x) ∧
    (t.stack ≠ s.stack ∨ t.sp ≠ s.sp → i = .ret ∨ ∃ a, i = .call a) ∧
    (t.dt ≠ s.dt → ∃ x, i = .ldDtVx x) ∧ (t.st ≠ s.st → ∃ x, i = .ldStVx x) ∧
    (t.fb ≠ s.fb ∨ t.dirty ≠ s.dirty → i = .cls ∨ ∃ x y n, i = .drw x y n) ∧
    (s.dirty = true → t.dirty = true) ∧
    (t.waitReg ≠ s.waitReg ∨ t.forcePresents ≠ s.forcePresents → ∃ x, i = .ldVxK x) ∧
    (t.runState ≠ s.runState → t.runState = .faulted ∨ (t.runState = .awaitKey ∧ ∃ x, i = .ldVxK x)) ∧
    (t.faultCause ≠ s.faultCause ∨ t.faultPc ≠ s.faultPc ∨ t.faultInfo ≠ s.faultInfo →
      t.runState = .faulted) ∧
    t.params = s.params ∧ t.keysHeld = s.keysHeld ∧ t.inputs = s.inputs ∧ t.started = s.started ∧
    t.loadErrors = s.loadErrors

/-- Memory changes only in the bytes that FX33 and FX55 store, from I on (R60, R71). The canonical form of
memory is the model's (log 15). -/
def Obligations.MemoryChangesOnlyInTheStoredBytes : Prop :=
  ∀ (i : Instr) (s t : State), Memory.wf s.base s.mem = true → exec i s = .next t →
    (∀ a, a < s.I.toNat ∨ s.I.toNat + storedBytes i ≤ a → t.readByte a = s.readByte a) ∧
    (storedBytes i = 0 → t.mem = s.mem)

/-- The pc update of every instruction that does not fault (R124, R125): the redirects, the skips, the
return, the wait, and the normal advance. -/
def Obligations.ProgramCounterFollowsTheFiveCases : Prop :=
  ∀ (i : Instr) (s t : State), s.runState = .run → exec i s = .next t → t.runState ≠ .faulted →
    (∀ a, i = .jp a ∨ i = .call a → t.pc = a.setWidth 16) ∧
    (∀ a, i = .jpV0 a → t.pc = a.setWidth 16 + (s.reg 0).setWidth 16) ∧
    (i = .ret → ∃ (k : Nat) (h : k < 16), s.sp.val = k + 1 ∧ t.pc = s.stack[k] + 2) ∧
    (∀ x, i = .ldVxK x → t.pc = s.pc) ∧
    (∀ x y nn, i = .seImm x nn ∨ i = .sneImm x nn ∨ i = .seReg x y ∨ i = .sneReg x y ∨ i = .skp x ∨
      i = .sknp x → t.pc = s.pc + 2 ∨ t.pc = s.pc + 4) ∧
    ((∀ a, i ≠ .jp a ∧ i ≠ .call a ∧ i ≠ .jpV0 a) → i ≠ .ret → (∀ x, i ≠ .ldVxK x) →
      (∀ x y nn, i ≠ .seImm x nn ∧ i ≠ .sneImm x nn ∧ i ≠ .seReg x y ∧ i ≠ .sneReg x y ∧ i ≠ .skp x ∧
        i ≠ .sknp x) → t.pc = s.pc + 2)

/-- No instruction reads ST or dirty: another value of either changes nothing but ST and dirty themselves
(R27, R29, R32). -/
def Obligations.SoundTimerAndDirtyAreNeverRead : Prop :=
  ∀ (i : Instr) (s t : State) (b : Byte) (d : Bool), exec i s = .next t →
    ∃ b' d', exec i { s with st := b, dirty := d } = .next { t with st := b', dirty := d' }

/-- Stack entries at and above SP are visible to nothing: another content of them changes no other state,
and they stay the only difference (R26, R43). -/
def Obligations.StaleStackEntriesAreInvisible : Prop :=
  ∀ (i : Instr) (s t : State) (stack' : Vector Word 16),
    (∀ (k : Nat) (h : k < 16), k < s.sp.val → stack'[k] = s.stack[k]) → exec i s = .next t →
    ∃ stack'', exec i { s with stack := stack' } = .next { t with stack := stack'' } ∧
      ∀ (k : Nat) (h : k < 16), k < t.sp.val → stack''[k] = t.stack[k]

/-! ## Encoding -/

/-- The worked example of R105, and a word of each of the twelve families of R96, with every top nibble
among them (R102). -/
def Obligations.SampleWordsDecode : Prop :=
  field 0xD123#16 0 1 = 0xD ∧ field 0xD123#16 1 3 = 0x123 ∧
  decode 0xD123#16 = some (.drw 1 2 3#4) ∧ decode 0x00E0#16 = some .cls ∧ decode 0x00EE#16 = some .ret ∧
  decode 0x0123#16 = some (.sys 0x123#12) ∧ decode 0x1ABC#16 = some (.jp 0xABC#12) ∧
  decode 0x2300#16 = some (.call 0x300#12) ∧ decode 0x3342#16 = some (.seImm 3 0x42#8) ∧
  decode 0x4005#16 = some (.sneImm 0 0x05#8) ∧ decode 0x5120#16 = some (.seReg 1 2) ∧
  decode 0x6A3C#16 = some (.ldImm 0xA 0x3C#8) ∧ decode 0x7003#16 = some (.addImm 0 0x03#8) ∧
  decode 0x845E#16 = some (.shl 4 5) ∧ decode 0x9120#16 = some (.sneReg 1 2) ∧
  decode 0xA123#16 = some (.ldI 0x123#12) ∧ decode 0xB300#16 = some (.jpV0 0x300#12) ∧
  decode 0xC0F0#16 = some (.rnd 0 0xF0#8) ∧
  decode 0xE5A1#16 = some (.sknp 5) ∧ decode 0xF265#16 = some (.ldVxMem 2)

/-- Decoding the encoding of a well-formed instruction gives it back, as a word and as the two bytes in
memory (R69, R104). -/
def Obligations.DecodeOfEncodeIsTheInstruction : Prop :=
  ∀ i : Instr, i.wf = true → decode (encode i) = some i ∧
    ∀ rest, decodeBytes (bytesOfWord (encode i) ++ rest) = .ok (i, rest)

/-- What a word decodes to is well-formed and encodes to that word: no field is dropped (R104). -/
def Obligations.EncodeOfDecodeIsTheWord : Prop :=
  ∀ (w : Word) (i : Instr), decode w = some i → i.wf = true ∧ encode i = w

/-- The decoder rejects exactly the words that R98 to R101 call ILLEGAL. -/
def Obligations.DecoderRejectsExactlyTheIllegalWords : Prop :=
  ∀ w : Word, decode w = none ↔ illegalWord w

/-! ## The invariant -/

/-- Every step keeps the invariant, whatever event it takes (R37, R62, R67, R126, R283). The canonical form of
memory (log 15), the record of a first step (log 10) and the list of events (log 5) are the model's choice. -/
def Obligations.EveryStepKeepsTheInvariant : Prop :=
  ∀ s t : State, s.Inv → step s = .next t → t.Inv

/-- The reset state has the invariant (R41); what in the invariant is the model's choice, see above (logs 10,
15). -/
def Obligations.ResetHasTheInvariant : Prop := State.reset.Inv

/-- The step never faults the model, and refuses nothing but a load after the first step since reset, which it
always refuses (R129, R364). How the model records a first step (log 10) and lists the events (log 5) is its
choice. -/
def Obligations.StepStopsOnlyOnBadLoads : Prop :=
  ∀ s : State,
    ((∃ rom es, s.inputs = .load rom :: es) ∧ s.started = true → step s = .refused .lateLoad) ∧
    (¬ ((∃ rom es, s.inputs = .load rom :: es) ∧ s.started = true) → ∃ t, step s = .next t)
end

