-- ==== Sys2Proof/Laws/Decode.lean ====
section
/-! SUPPORT. The fields of a word put together from fields, and of a word taken apart. -/

namespace Sys2Proof

variable (t n : Nibble) (x y : Reg) (nn : Byte) (nnn : Addr12) (w : Word)

/-! ### Taking two halves of a word apart -/

/-- The high half of two bit vectors joined. -/
theorem extract_high {a b : Nat} (u : BitVec a) (v : BitVec b) : (u ++ v).extractLsb' b a = u := by
  ext i hi
  simp [BitVec.getLsbD_append, hi]

/-- A field inside the low half of two bit vectors joined. -/
theorem extract_low {a b : Nat} (u : BitVec a) (v : BitVec b) (s k : Nat) (h : s + k ≤ b) :
    (u ++ v).extractLsb' s k = v.extractLsb' s k := by
  ext i hi
  simp [BitVec.getLsbD_append, show s + i < b by omega]

/-- A field inside the high half of two bit vectors joined. -/
theorem extract_upper {a b : Nat} (u : BitVec a) (v : BitVec b) (s k : Nat) :
    (u ++ v).extractLsb' (b + s) k = u.extractLsb' s k := by
  ext i hi
  simp [BitVec.getLsbD_append, show ¬ (b + s + i < b) by omega, show b + s + i - b = s + i by omega]

theorem extract_all {a : Nat} (u : BitVec a) : u.extractLsb' 0 a = u := by
  ext i hi
  simp

/-! ### Format ADDR -/

@[simp] theorem fieldT_wordAddr : fieldT (wordAddr t nnn) = t := extract_high t nnn

@[simp] theorem fieldNNN_wordAddr : fieldNNN (wordAddr t nnn) = nnn :=
  (extract_low t nnn 0 12 (by decide)).trans (extract_all nnn)

/-! ### Formats REG_IMM and REG_SUB -/

@[simp] theorem fieldT_wordRegImm : fieldT (wordRegImm t x nn) = t :=
  (extract_upper (t ++ (BitVec.ofFin x : Nibble)) nn 4 4).trans (extract_high t _)

@[simp] theorem fieldX_wordRegImm : fieldX (wordRegImm t x nn) = x :=
  congrArg BitVec.toFin <|
    (extract_upper (t ++ (BitVec.ofFin x : Nibble)) nn 0 4).trans <|
      (extract_low t (BitVec.ofFin x : Nibble) 0 4 (by decide)).trans (extract_all _)

@[simp] theorem fieldNN_wordRegImm : fieldNN (wordRegImm t x nn) = nn :=
  (extract_low (t ++ (BitVec.ofFin x : Nibble)) nn 0 8 (by decide)).trans (extract_all nn)

/-! ### Formats REG_REG and DRAW -/

@[simp] theorem fieldT_wordRegReg : fieldT (wordRegReg t x y n) = t :=
  (extract_upper (t ++ (BitVec.ofFin x : Nibble) ++ (BitVec.ofFin y : Nibble)) n 8 4).trans <|
    (extract_upper (t ++ (BitVec.ofFin x : Nibble)) (BitVec.ofFin y : Nibble) 4 4).trans
      (extract_high t _)

@[simp] theorem fieldX_wordRegReg : fieldX (wordRegReg t x y n) = x :=
  congrArg BitVec.toFin <|
    (extract_upper (t ++ (BitVec.ofFin x : Nibble) ++ (BitVec.ofFin y : Nibble)) n 4 4).trans <|
      (extract_upper (t ++ (BitVec.ofFin x : Nibble)) (BitVec.ofFin y : Nibble) 0 4).trans <|
        (extract_low t (BitVec.ofFin x : Nibble) 0 4 (by decide)).trans (extract_all _)

@[simp] theorem fieldY_wordRegReg : fieldY (wordRegReg t x y n) = y :=
  congrArg BitVec.toFin <|
    (extract_upper (t ++ (BitVec.ofFin x : Nibble) ++ (BitVec.ofFin y : Nibble)) n 0 4).trans <|
      (extract_low (t ++ (BitVec.ofFin x : Nibble)) (BitVec.ofFin y : Nibble) 0 4 (by decide)).trans
        (extract_all _)

@[simp] theorem fieldN_wordRegReg : fieldN (wordRegReg t x y n) = n :=
  (extract_low (t ++ (BitVec.ofFin x : Nibble) ++ (BitVec.ofFin y : Nibble)) n 0 4 (by decide)).trans
    (extract_all n)

/-! ### A word from its own fields -/

/-- Joining two adjacent fields of a word gives the field that covers both. -/
theorem join_fields {a : Nat} (u : BitVec a) (s i j : Nat) :
    u.extractLsb' (s + j) i ++ u.extractLsb' s j = u.extractLsb' s (i + j) := by
  ext k hk
  simp only [BitVec.getElem_append, BitVec.getElem_extractLsb']
  split
  · rfl
  · congr 1; omega

theorem wordAddr_fields : wordAddr (fieldT w) (fieldNNN w) = w :=
  (join_fields w 0 4 12).trans (extract_all w)

theorem wordRegImm_fields : wordRegImm (fieldT w) (fieldX w) (fieldNN w) = w := by
  have h : (fieldT w ++ (BitVec.ofFin (fieldX w) : Nibble)) = w.extractLsb' 8 8 := join_fields w 8 4 4
  unfold wordRegImm
  rw [h]
  exact (join_fields w 0 8 8).trans (extract_all w)

theorem fieldNN_eq : fieldNN w = (BitVec.ofFin (fieldY w) : Nibble) ++ fieldN w :=
  (join_fields w 0 4 4).symm

theorem wordRegReg_fields : wordRegReg (fieldT w) (fieldX w) (fieldY w) (fieldN w) = w := by
  have h : (fieldT w ++ (BitVec.ofFin (fieldX w) : Nibble)) = w.extractLsb' 8 8 := join_fields w 8 4 4
  have h' : (w.extractLsb' 8 8 ++ (BitVec.ofFin (fieldY w) : Nibble)) = w.extractLsb' 4 12 :=
    join_fields w 4 8 4
  unfold wordRegReg
  rw [h, h']
  exact (join_fields w 0 12 4).trans (extract_all w)

/-- Distinct fields give distinct ADDR words. -/
theorem wordAddr_inj {t' : Nibble} {nnn' : Addr12} :
    wordAddr t nnn = wordAddr t' nnn' ↔ t = t' ∧ nnn = nnn' := by
  constructor
  · intro h
    have h1 := congrArg fieldT h
    have h2 := congrArg fieldNNN h
    simp only [fieldT_wordAddr, fieldNNN_wordAddr] at h1 h2
    exact ⟨h1, h2⟩
  · rintro ⟨rfl, rfl⟩; rfl

/-- The bytes of a word, stored and fetched again (R69). -/
theorem wordOfBytes_bytes : wordOfBytes (highByte w) (lowByte w) = w :=
  (join_fields w 0 8 8).trans (extract_all w)

@[simp] theorem highByte_wordOfBytes (hi lo : Byte) : highByte (wordOfBytes hi lo) = hi := extract_high hi lo

@[simp] theorem lowByte_wordOfBytes (hi lo : Byte) : lowByte (wordOfBytes hi lo) = lo :=
  (extract_low hi lo 0 8 (by decide)).trans (extract_all lo)

/-- A nibble is one of the 16 values that the decoder matches on. -/
theorem nibble_cases (t : Nibble) :
    t = 0x0#4 ∨ t = 0x1#4 ∨ t = 0x2#4 ∨ t = 0x3#4 ∨ t = 0x4#4 ∨ t = 0x5#4 ∨ t = 0x6#4 ∨ t = 0x7#4 ∨
    t = 0x8#4 ∨ t = 0x9#4 ∨ t = 0xA#4 ∨ t = 0xB#4 ∨ t = 0xC#4 ∨ t = 0xD#4 ∨ t = 0xE#4 ∨ t = 0xF#4 := by
  revert t
  decide

end Sys2Proof
end

