-- ==== Sys2Proof/Laws/State.lean ====
section
/-! SUPPORT. One lemma per field per update of State, and per reading (a register, a byte, a cell) that an update
leaves alone, each true by definition. -/

namespace Sys2Proof.Machine.State

/-! ### setReg -/

@[simp] theorem setReg_params (s : State) (x : Reg) (b : Byte) : (s.setReg x b).params = s.params := rfl
@[simp] theorem setReg_v (s : State) (x : Reg) (b : Byte) : (s.setReg x b).v = s.v.set x.val b := rfl
@[simp] theorem setReg_I (s : State) (x : Reg) (b : Byte) : (s.setReg x b).I = s.I := rfl
@[simp] theorem setReg_pc (s : State) (x : Reg) (b : Byte) : (s.setReg x b).pc = s.pc := rfl
@[simp] theorem setReg_stack (s : State) (x : Reg) (b : Byte) : (s.setReg x b).stack = s.stack := rfl
@[simp] theorem setReg_sp (s : State) (x : Reg) (b : Byte) : (s.setReg x b).sp = s.sp := rfl
@[simp] theorem setReg_dt (s : State) (x : Reg) (b : Byte) : (s.setReg x b).dt = s.dt := rfl
@[simp] theorem setReg_st (s : State) (x : Reg) (b : Byte) : (s.setReg x b).st = s.st := rfl
@[simp] theorem setReg_fb (s : State) (x : Reg) (b : Byte) : (s.setReg x b).fb = s.fb := rfl
@[simp] theorem setReg_dirty (s : State) (x : Reg) (b : Byte) : (s.setReg x b).dirty = s.dirty := rfl
@[simp] theorem setReg_runState (s : State) (x : Reg) (b : Byte) : (s.setReg x b).runState = s.runState := rfl
@[simp] theorem setReg_waitReg (s : State) (x : Reg) (b : Byte) : (s.setReg x b).waitReg = s.waitReg := rfl
@[simp] theorem setReg_faultCause (s : State) (x : Reg) (b : Byte) : (s.setReg x b).faultCause = s.faultCause := rfl
@[simp] theorem setReg_faultPc (s : State) (x : Reg) (b : Byte) : (s.setReg x b).faultPc = s.faultPc := rfl
@[simp] theorem setReg_faultInfo (s : State) (x : Reg) (b : Byte) : (s.setReg x b).faultInfo = s.faultInfo := rfl
@[simp] theorem setReg_mem (s : State) (x : Reg) (b : Byte) : (s.setReg x b).mem = s.mem := rfl
@[simp] theorem setReg_keysHeld (s : State) (x : Reg) (b : Byte) : (s.setReg x b).keysHeld = s.keysHeld := rfl
@[simp] theorem setReg_rnd (s : State) (x : Reg) (b : Byte) : (s.setReg x b).rnd = s.rnd := rfl
@[simp] theorem setReg_forcePresents (s : State) (x : Reg) (b : Byte) : (s.setReg x b).forcePresents = s.forcePresents := rfl
@[simp] theorem setReg_loadErrors (s : State) (x : Reg) (b : Byte) : (s.setReg x b).loadErrors = s.loadErrors := rfl
@[simp] theorem setReg_inputs (s : State) (x : Reg) (b : Byte) : (s.setReg x b).inputs = s.inputs := rfl
@[simp] theorem setReg_draws (s : State) (x : Reg) (b : Byte) : (s.setReg x b).draws = s.draws := rfl
@[simp] theorem setReg_started (s : State) (x : Reg) (b : Byte) : (s.setReg x b).started = s.started := rfl
@[simp] theorem setReg_readByte (s : State) (x : Reg) (b : Byte) (adr : Nat) : (s.setReg x b).readByte adr = s.readByte adr := rfl
@[simp] theorem setReg_pixel (s : State) (x : Reg) (b : Byte) (i j : Nat) : (s.setReg x b).pixel i j = s.pixel i j := rfl
@[simp] theorem setReg_base (s : State) (x : Reg) (b : Byte) : (s.setReg x b).base = s.base := rfl

/-! ### setI -/

@[simp] theorem setI_params (s : State) (a : Word) : (s.setI a).params = s.params := rfl
@[simp] theorem setI_v (s : State) (a : Word) : (s.setI a).v = s.v := rfl
@[simp] theorem setI_I (s : State) (a : Word) : (s.setI a).I = a := rfl
@[simp] theorem setI_pc (s : State) (a : Word) : (s.setI a).pc = s.pc := rfl
@[simp] theorem setI_stack (s : State) (a : Word) : (s.setI a).stack = s.stack := rfl
@[simp] theorem setI_sp (s : State) (a : Word) : (s.setI a).sp = s.sp := rfl
@[simp] theorem setI_dt (s : State) (a : Word) : (s.setI a).dt = s.dt := rfl
@[simp] theorem setI_st (s : State) (a : Word) : (s.setI a).st = s.st := rfl
@[simp] theorem setI_fb (s : State) (a : Word) : (s.setI a).fb = s.fb := rfl
@[simp] theorem setI_dirty (s : State) (a : Word) : (s.setI a).dirty = s.dirty := rfl
@[simp] theorem setI_runState (s : State) (a : Word) : (s.setI a).runState = s.runState := rfl
@[simp] theorem setI_waitReg (s : State) (a : Word) : (s.setI a).waitReg = s.waitReg := rfl
@[simp] theorem setI_faultCause (s : State) (a : Word) : (s.setI a).faultCause = s.faultCause := rfl
@[simp] theorem setI_faultPc (s : State) (a : Word) : (s.setI a).faultPc = s.faultPc := rfl
@[simp] theorem setI_faultInfo (s : State) (a : Word) : (s.setI a).faultInfo = s.faultInfo := rfl
@[simp] theorem setI_mem (s : State) (a : Word) : (s.setI a).mem = s.mem := rfl
@[simp] theorem setI_keysHeld (s : State) (a : Word) : (s.setI a).keysHeld = s.keysHeld := rfl
@[simp] theorem setI_rnd (s : State) (a : Word) : (s.setI a).rnd = s.rnd := rfl
@[simp] theorem setI_forcePresents (s : State) (a : Word) : (s.setI a).forcePresents = s.forcePresents := rfl
@[simp] theorem setI_loadErrors (s : State) (a : Word) : (s.setI a).loadErrors = s.loadErrors := rfl
@[simp] theorem setI_inputs (s : State) (a : Word) : (s.setI a).inputs = s.inputs := rfl
@[simp] theorem setI_draws (s : State) (a : Word) : (s.setI a).draws = s.draws := rfl
@[simp] theorem setI_started (s : State) (a : Word) : (s.setI a).started = s.started := rfl
@[simp] theorem setI_reg (s : State) (a : Word) (r : Reg) : (s.setI a).reg r = s.reg r := rfl
@[simp] theorem setI_readByte (s : State) (a : Word) (adr : Nat) : (s.setI a).readByte adr = s.readByte adr := rfl
@[simp] theorem setI_pixel (s : State) (a : Word) (i j : Nat) : (s.setI a).pixel i j = s.pixel i j := rfl
@[simp] theorem setI_base (s : State) (a : Word) : (s.setI a).base = s.base := rfl

/-! ### setPc -/

@[simp] theorem setPc_params (s : State) (a : Word) : (s.setPc a).params = s.params := rfl
@[simp] theorem setPc_v (s : State) (a : Word) : (s.setPc a).v = s.v := rfl
@[simp] theorem setPc_I (s : State) (a : Word) : (s.setPc a).I = s.I := rfl
@[simp] theorem setPc_pc (s : State) (a : Word) : (s.setPc a).pc = a := rfl
@[simp] theorem setPc_stack (s : State) (a : Word) : (s.setPc a).stack = s.stack := rfl
@[simp] theorem setPc_sp (s : State) (a : Word) : (s.setPc a).sp = s.sp := rfl
@[simp] theorem setPc_dt (s : State) (a : Word) : (s.setPc a).dt = s.dt := rfl
@[simp] theorem setPc_st (s : State) (a : Word) : (s.setPc a).st = s.st := rfl
@[simp] theorem setPc_fb (s : State) (a : Word) : (s.setPc a).fb = s.fb := rfl
@[simp] theorem setPc_dirty (s : State) (a : Word) : (s.setPc a).dirty = s.dirty := rfl
@[simp] theorem setPc_runState (s : State) (a : Word) : (s.setPc a).runState = s.runState := rfl
@[simp] theorem setPc_waitReg (s : State) (a : Word) : (s.setPc a).waitReg = s.waitReg := rfl
@[simp] theorem setPc_faultCause (s : State) (a : Word) : (s.setPc a).faultCause = s.faultCause := rfl
@[simp] theorem setPc_faultPc (s : State) (a : Word) : (s.setPc a).faultPc = s.faultPc := rfl
@[simp] theorem setPc_faultInfo (s : State) (a : Word) : (s.setPc a).faultInfo = s.faultInfo := rfl
@[simp] theorem setPc_mem (s : State) (a : Word) : (s.setPc a).mem = s.mem := rfl
@[simp] theorem setPc_keysHeld (s : State) (a : Word) : (s.setPc a).keysHeld = s.keysHeld := rfl
@[simp] theorem setPc_rnd (s : State) (a : Word) : (s.setPc a).rnd = s.rnd := rfl
@[simp] theorem setPc_forcePresents (s : State) (a : Word) : (s.setPc a).forcePresents = s.forcePresents := rfl
@[simp] theorem setPc_loadErrors (s : State) (a : Word) : (s.setPc a).loadErrors = s.loadErrors := rfl
@[simp] theorem setPc_inputs (s : State) (a : Word) : (s.setPc a).inputs = s.inputs := rfl
@[simp] theorem setPc_draws (s : State) (a : Word) : (s.setPc a).draws = s.draws := rfl
@[simp] theorem setPc_started (s : State) (a : Word) : (s.setPc a).started = s.started := rfl
@[simp] theorem setPc_reg (s : State) (a : Word) (r : Reg) : (s.setPc a).reg r = s.reg r := rfl
@[simp] theorem setPc_readByte (s : State) (a : Word) (adr : Nat) : (s.setPc a).readByte adr = s.readByte adr := rfl
@[simp] theorem setPc_pixel (s : State) (a : Word) (i j : Nat) : (s.setPc a).pixel i j = s.pixel i j := rfl
@[simp] theorem setPc_base (s : State) (a : Word) : (s.setPc a).base = s.base := rfl

/-! ### setDt -/

@[simp] theorem setDt_params (s : State) (b : Byte) : (s.setDt b).params = s.params := rfl
@[simp] theorem setDt_v (s : State) (b : Byte) : (s.setDt b).v = s.v := rfl
@[simp] theorem setDt_I (s : State) (b : Byte) : (s.setDt b).I = s.I := rfl
@[simp] theorem setDt_pc (s : State) (b : Byte) : (s.setDt b).pc = s.pc := rfl
@[simp] theorem setDt_stack (s : State) (b : Byte) : (s.setDt b).stack = s.stack := rfl
@[simp] theorem setDt_sp (s : State) (b : Byte) : (s.setDt b).sp = s.sp := rfl
@[simp] theorem setDt_dt (s : State) (b : Byte) : (s.setDt b).dt = b := rfl
@[simp] theorem setDt_st (s : State) (b : Byte) : (s.setDt b).st = s.st := rfl
@[simp] theorem setDt_fb (s : State) (b : Byte) : (s.setDt b).fb = s.fb := rfl
@[simp] theorem setDt_dirty (s : State) (b : Byte) : (s.setDt b).dirty = s.dirty := rfl
@[simp] theorem setDt_runState (s : State) (b : Byte) : (s.setDt b).runState = s.runState := rfl
@[simp] theorem setDt_waitReg (s : State) (b : Byte) : (s.setDt b).waitReg = s.waitReg := rfl
@[simp] theorem setDt_faultCause (s : State) (b : Byte) : (s.setDt b).faultCause = s.faultCause := rfl
@[simp] theorem setDt_faultPc (s : State) (b : Byte) : (s.setDt b).faultPc = s.faultPc := rfl
@[simp] theorem setDt_faultInfo (s : State) (b : Byte) : (s.setDt b).faultInfo = s.faultInfo := rfl
@[simp] theorem setDt_mem (s : State) (b : Byte) : (s.setDt b).mem = s.mem := rfl
@[simp] theorem setDt_keysHeld (s : State) (b : Byte) : (s.setDt b).keysHeld = s.keysHeld := rfl
@[simp] theorem setDt_rnd (s : State) (b : Byte) : (s.setDt b).rnd = s.rnd := rfl
@[simp] theorem setDt_forcePresents (s : State) (b : Byte) : (s.setDt b).forcePresents = s.forcePresents := rfl
@[simp] theorem setDt_loadErrors (s : State) (b : Byte) : (s.setDt b).loadErrors = s.loadErrors := rfl
@[simp] theorem setDt_inputs (s : State) (b : Byte) : (s.setDt b).inputs = s.inputs := rfl
@[simp] theorem setDt_draws (s : State) (b : Byte) : (s.setDt b).draws = s.draws := rfl
@[simp] theorem setDt_started (s : State) (b : Byte) : (s.setDt b).started = s.started := rfl
@[simp] theorem setDt_reg (s : State) (b : Byte) (r : Reg) : (s.setDt b).reg r = s.reg r := rfl
@[simp] theorem setDt_readByte (s : State) (b : Byte) (adr : Nat) : (s.setDt b).readByte adr = s.readByte adr := rfl
@[simp] theorem setDt_pixel (s : State) (b : Byte) (i j : Nat) : (s.setDt b).pixel i j = s.pixel i j := rfl
@[simp] theorem setDt_base (s : State) (b : Byte) : (s.setDt b).base = s.base := rfl

/-! ### setSt -/

@[simp] theorem setSt_params (s : State) (b : Byte) : (s.setSt b).params = s.params := rfl
@[simp] theorem setSt_v (s : State) (b : Byte) : (s.setSt b).v = s.v := rfl
@[simp] theorem setSt_I (s : State) (b : Byte) : (s.setSt b).I = s.I := rfl
@[simp] theorem setSt_pc (s : State) (b : Byte) : (s.setSt b).pc = s.pc := rfl
@[simp] theorem setSt_stack (s : State) (b : Byte) : (s.setSt b).stack = s.stack := rfl
@[simp] theorem setSt_sp (s : State) (b : Byte) : (s.setSt b).sp = s.sp := rfl
@[simp] theorem setSt_dt (s : State) (b : Byte) : (s.setSt b).dt = s.dt := rfl
@[simp] theorem setSt_st (s : State) (b : Byte) : (s.setSt b).st = b := rfl
@[simp] theorem setSt_fb (s : State) (b : Byte) : (s.setSt b).fb = s.fb := rfl
@[simp] theorem setSt_dirty (s : State) (b : Byte) : (s.setSt b).dirty = s.dirty := rfl
@[simp] theorem setSt_runState (s : State) (b : Byte) : (s.setSt b).runState = s.runState := rfl
@[simp] theorem setSt_waitReg (s : State) (b : Byte) : (s.setSt b).waitReg = s.waitReg := rfl
@[simp] theorem setSt_faultCause (s : State) (b : Byte) : (s.setSt b).faultCause = s.faultCause := rfl
@[simp] theorem setSt_faultPc (s : State) (b : Byte) : (s.setSt b).faultPc = s.faultPc := rfl
@[simp] theorem setSt_faultInfo (s : State) (b : Byte) : (s.setSt b).faultInfo = s.faultInfo := rfl
@[simp] theorem setSt_mem (s : State) (b : Byte) : (s.setSt b).mem = s.mem := rfl
@[simp] theorem setSt_keysHeld (s : State) (b : Byte) : (s.setSt b).keysHeld = s.keysHeld := rfl
@[simp] theorem setSt_rnd (s : State) (b : Byte) : (s.setSt b).rnd = s.rnd := rfl
@[simp] theorem setSt_forcePresents (s : State) (b : Byte) : (s.setSt b).forcePresents = s.forcePresents := rfl
@[simp] theorem setSt_loadErrors (s : State) (b : Byte) : (s.setSt b).loadErrors = s.loadErrors := rfl
@[simp] theorem setSt_inputs (s : State) (b : Byte) : (s.setSt b).inputs = s.inputs := rfl
@[simp] theorem setSt_draws (s : State) (b : Byte) : (s.setSt b).draws = s.draws := rfl
@[simp] theorem setSt_started (s : State) (b : Byte) : (s.setSt b).started = s.started := rfl
@[simp] theorem setSt_reg (s : State) (b : Byte) (r : Reg) : (s.setSt b).reg r = s.reg r := rfl
@[simp] theorem setSt_readByte (s : State) (b : Byte) (adr : Nat) : (s.setSt b).readByte adr = s.readByte adr := rfl
@[simp] theorem setSt_pixel (s : State) (b : Byte) (i j : Nat) : (s.setSt b).pixel i j = s.pixel i j := rfl
@[simp] theorem setSt_base (s : State) (b : Byte) : (s.setSt b).base = s.base := rfl

/-! ### setFb -/

@[simp] theorem setFb_params (s : State) (fb : Display) : (s.setFb fb).params = s.params := rfl
@[simp] theorem setFb_v (s : State) (fb : Display) : (s.setFb fb).v = s.v := rfl
@[simp] theorem setFb_I (s : State) (fb : Display) : (s.setFb fb).I = s.I := rfl
@[simp] theorem setFb_pc (s : State) (fb : Display) : (s.setFb fb).pc = s.pc := rfl
@[simp] theorem setFb_stack (s : State) (fb : Display) : (s.setFb fb).stack = s.stack := rfl
@[simp] theorem setFb_sp (s : State) (fb : Display) : (s.setFb fb).sp = s.sp := rfl
@[simp] theorem setFb_dt (s : State) (fb : Display) : (s.setFb fb).dt = s.dt := rfl
@[simp] theorem setFb_st (s : State) (fb : Display) : (s.setFb fb).st = s.st := rfl
@[simp] theorem setFb_fb (s : State) (fb : Display) : (s.setFb fb).fb = fb := rfl
@[simp] theorem setFb_dirty (s : State) (fb : Display) : (s.setFb fb).dirty = s.dirty := rfl
@[simp] theorem setFb_runState (s : State) (fb : Display) : (s.setFb fb).runState = s.runState := rfl
@[simp] theorem setFb_waitReg (s : State) (fb : Display) : (s.setFb fb).waitReg = s.waitReg := rfl
@[simp] theorem setFb_faultCause (s : State) (fb : Display) : (s.setFb fb).faultCause = s.faultCause := rfl
@[simp] theorem setFb_faultPc (s : State) (fb : Display) : (s.setFb fb).faultPc = s.faultPc := rfl
@[simp] theorem setFb_faultInfo (s : State) (fb : Display) : (s.setFb fb).faultInfo = s.faultInfo := rfl
@[simp] theorem setFb_mem (s : State) (fb : Display) : (s.setFb fb).mem = s.mem := rfl
@[simp] theorem setFb_keysHeld (s : State) (fb : Display) : (s.setFb fb).keysHeld = s.keysHeld := rfl
@[simp] theorem setFb_rnd (s : State) (fb : Display) : (s.setFb fb).rnd = s.rnd := rfl
@[simp] theorem setFb_forcePresents (s : State) (fb : Display) : (s.setFb fb).forcePresents = s.forcePresents := rfl
@[simp] theorem setFb_loadErrors (s : State) (fb : Display) : (s.setFb fb).loadErrors = s.loadErrors := rfl
@[simp] theorem setFb_inputs (s : State) (fb : Display) : (s.setFb fb).inputs = s.inputs := rfl
@[simp] theorem setFb_draws (s : State) (fb : Display) : (s.setFb fb).draws = s.draws := rfl
@[simp] theorem setFb_started (s : State) (fb : Display) : (s.setFb fb).started = s.started := rfl
@[simp] theorem setFb_reg (s : State) (fb : Display) (r : Reg) : (s.setFb fb).reg r = s.reg r := rfl
@[simp] theorem setFb_readByte (s : State) (fb : Display) (adr : Nat) : (s.setFb fb).readByte adr = s.readByte adr := rfl
@[simp] theorem setFb_base (s : State) (fb : Display) : (s.setFb fb).base = s.base := rfl

/-! ### setDirty -/

@[simp] theorem setDirty_params (s : State) (d : Bool) : (s.setDirty d).params = s.params := rfl
@[simp] theorem setDirty_v (s : State) (d : Bool) : (s.setDirty d).v = s.v := rfl
@[simp] theorem setDirty_I (s : State) (d : Bool) : (s.setDirty d).I = s.I := rfl
@[simp] theorem setDirty_pc (s : State) (d : Bool) : (s.setDirty d).pc = s.pc := rfl
@[simp] theorem setDirty_stack (s : State) (d : Bool) : (s.setDirty d).stack = s.stack := rfl
@[simp] theorem setDirty_sp (s : State) (d : Bool) : (s.setDirty d).sp = s.sp := rfl
@[simp] theorem setDirty_dt (s : State) (d : Bool) : (s.setDirty d).dt = s.dt := rfl
@[simp] theorem setDirty_st (s : State) (d : Bool) : (s.setDirty d).st = s.st := rfl
@[simp] theorem setDirty_fb (s : State) (d : Bool) : (s.setDirty d).fb = s.fb := rfl
@[simp] theorem setDirty_dirty (s : State) (d : Bool) : (s.setDirty d).dirty = d := rfl
@[simp] theorem setDirty_runState (s : State) (d : Bool) : (s.setDirty d).runState = s.runState := rfl
@[simp] theorem setDirty_waitReg (s : State) (d : Bool) : (s.setDirty d).waitReg = s.waitReg := rfl
@[simp] theorem setDirty_faultCause (s : State) (d : Bool) : (s.setDirty d).faultCause = s.faultCause := rfl
@[simp] theorem setDirty_faultPc (s : State) (d : Bool) : (s.setDirty d).faultPc = s.faultPc := rfl
@[simp] theorem setDirty_faultInfo (s : State) (d : Bool) : (s.setDirty d).faultInfo = s.faultInfo := rfl
@[simp] theorem setDirty_mem (s : State) (d : Bool) : (s.setDirty d).mem = s.mem := rfl
@[simp] theorem setDirty_keysHeld (s : State) (d : Bool) : (s.setDirty d).keysHeld = s.keysHeld := rfl
@[simp] theorem setDirty_rnd (s : State) (d : Bool) : (s.setDirty d).rnd = s.rnd := rfl
@[simp] theorem setDirty_forcePresents (s : State) (d : Bool) : (s.setDirty d).forcePresents = s.forcePresents := rfl
@[simp] theorem setDirty_loadErrors (s : State) (d : Bool) : (s.setDirty d).loadErrors = s.loadErrors := rfl
@[simp] theorem setDirty_inputs (s : State) (d : Bool) : (s.setDirty d).inputs = s.inputs := rfl
@[simp] theorem setDirty_draws (s : State) (d : Bool) : (s.setDirty d).draws = s.draws := rfl
@[simp] theorem setDirty_started (s : State) (d : Bool) : (s.setDirty d).started = s.started := rfl
@[simp] theorem setDirty_reg (s : State) (d : Bool) (r : Reg) : (s.setDirty d).reg r = s.reg r := rfl
@[simp] theorem setDirty_readByte (s : State) (d : Bool) (adr : Nat) : (s.setDirty d).readByte adr = s.readByte adr := rfl
@[simp] theorem setDirty_pixel (s : State) (d : Bool) (i j : Nat) : (s.setDirty d).pixel i j = s.pixel i j := rfl
@[simp] theorem setDirty_base (s : State) (d : Bool) : (s.setDirty d).base = s.base := rfl

/-! ### setMem -/

@[simp] theorem setMem_params (s : State) (m : List Host.Cell) : (s.setMem m).params = s.params := rfl
@[simp] theorem setMem_v (s : State) (m : List Host.Cell) : (s.setMem m).v = s.v := rfl
@[simp] theorem setMem_I (s : State) (m : List Host.Cell) : (s.setMem m).I = s.I := rfl
@[simp] theorem setMem_pc (s : State) (m : List Host.Cell) : (s.setMem m).pc = s.pc := rfl
@[simp] theorem setMem_stack (s : State) (m : List Host.Cell) : (s.setMem m).stack = s.stack := rfl
@[simp] theorem setMem_sp (s : State) (m : List Host.Cell) : (s.setMem m).sp = s.sp := rfl
@[simp] theorem setMem_dt (s : State) (m : List Host.Cell) : (s.setMem m).dt = s.dt := rfl
@[simp] theorem setMem_st (s : State) (m : List Host.Cell) : (s.setMem m).st = s.st := rfl
@[simp] theorem setMem_fb (s : State) (m : List Host.Cell) : (s.setMem m).fb = s.fb := rfl
@[simp] theorem setMem_dirty (s : State) (m : List Host.Cell) : (s.setMem m).dirty = s.dirty := rfl
@[simp] theorem setMem_runState (s : State) (m : List Host.Cell) : (s.setMem m).runState = s.runState := rfl
@[simp] theorem setMem_waitReg (s : State) (m : List Host.Cell) : (s.setMem m).waitReg = s.waitReg := rfl
@[simp] theorem setMem_faultCause (s : State) (m : List Host.Cell) : (s.setMem m).faultCause = s.faultCause := rfl
@[simp] theorem setMem_faultPc (s : State) (m : List Host.Cell) : (s.setMem m).faultPc = s.faultPc := rfl
@[simp] theorem setMem_faultInfo (s : State) (m : List Host.Cell) : (s.setMem m).faultInfo = s.faultInfo := rfl
@[simp] theorem setMem_mem (s : State) (m : List Host.Cell) : (s.setMem m).mem = m := rfl
@[simp] theorem setMem_keysHeld (s : State) (m : List Host.Cell) : (s.setMem m).keysHeld = s.keysHeld := rfl
@[simp] theorem setMem_rnd (s : State) (m : List Host.Cell) : (s.setMem m).rnd = s.rnd := rfl
@[simp] theorem setMem_forcePresents (s : State) (m : List Host.Cell) : (s.setMem m).forcePresents = s.forcePresents := rfl
@[simp] theorem setMem_loadErrors (s : State) (m : List Host.Cell) : (s.setMem m).loadErrors = s.loadErrors := rfl
@[simp] theorem setMem_inputs (s : State) (m : List Host.Cell) : (s.setMem m).inputs = s.inputs := rfl
@[simp] theorem setMem_draws (s : State) (m : List Host.Cell) : (s.setMem m).draws = s.draws := rfl
@[simp] theorem setMem_started (s : State) (m : List Host.Cell) : (s.setMem m).started = s.started := rfl
@[simp] theorem setMem_reg (s : State) (m : List Host.Cell) (r : Reg) : (s.setMem m).reg r = s.reg r := rfl
@[simp] theorem setMem_pixel (s : State) (m : List Host.Cell) (i j : Nat) : (s.setMem m).pixel i j = s.pixel i j := rfl
@[simp] theorem setMem_base (s : State) (m : List Host.Cell) : (s.setMem m).base = s.base := rfl

/-! ### setInputs -/

@[simp] theorem setInputs_params (s : State) (es : List Event) : (s.setInputs es).params = s.params := rfl
@[simp] theorem setInputs_v (s : State) (es : List Event) : (s.setInputs es).v = s.v := rfl
@[simp] theorem setInputs_I (s : State) (es : List Event) : (s.setInputs es).I = s.I := rfl
@[simp] theorem setInputs_pc (s : State) (es : List Event) : (s.setInputs es).pc = s.pc := rfl
@[simp] theorem setInputs_stack (s : State) (es : List Event) : (s.setInputs es).stack = s.stack := rfl
@[simp] theorem setInputs_sp (s : State) (es : List Event) : (s.setInputs es).sp = s.sp := rfl
@[simp] theorem setInputs_dt (s : State) (es : List Event) : (s.setInputs es).dt = s.dt := rfl
@[simp] theorem setInputs_st (s : State) (es : List Event) : (s.setInputs es).st = s.st := rfl
@[simp] theorem setInputs_fb (s : State) (es : List Event) : (s.setInputs es).fb = s.fb := rfl
@[simp] theorem setInputs_dirty (s : State) (es : List Event) : (s.setInputs es).dirty = s.dirty := rfl
@[simp] theorem setInputs_runState (s : State) (es : List Event) : (s.setInputs es).runState = s.runState := rfl
@[simp] theorem setInputs_waitReg (s : State) (es : List Event) : (s.setInputs es).waitReg = s.waitReg := rfl
@[simp] theorem setInputs_faultCause (s : State) (es : List Event) : (s.setInputs es).faultCause = s.faultCause := rfl
@[simp] theorem setInputs_faultPc (s : State) (es : List Event) : (s.setInputs es).faultPc = s.faultPc := rfl
@[simp] theorem setInputs_faultInfo (s : State) (es : List Event) : (s.setInputs es).faultInfo = s.faultInfo := rfl
@[simp] theorem setInputs_mem (s : State) (es : List Event) : (s.setInputs es).mem = s.mem := rfl
@[simp] theorem setInputs_keysHeld (s : State) (es : List Event) : (s.setInputs es).keysHeld = s.keysHeld := rfl
@[simp] theorem setInputs_rnd (s : State) (es : List Event) : (s.setInputs es).rnd = s.rnd := rfl
@[simp] theorem setInputs_forcePresents (s : State) (es : List Event) : (s.setInputs es).forcePresents = s.forcePresents := rfl
@[simp] theorem setInputs_loadErrors (s : State) (es : List Event) : (s.setInputs es).loadErrors = s.loadErrors := rfl
@[simp] theorem setInputs_inputs (s : State) (es : List Event) : (s.setInputs es).inputs = es := rfl
@[simp] theorem setInputs_draws (s : State) (es : List Event) : (s.setInputs es).draws = s.draws := rfl
@[simp] theorem setInputs_started (s : State) (es : List Event) : (s.setInputs es).started = s.started := rfl
@[simp] theorem setInputs_reg (s : State) (es : List Event) (r : Reg) : (s.setInputs es).reg r = s.reg r := rfl
@[simp] theorem setInputs_readByte (s : State) (es : List Event) (adr : Nat) : (s.setInputs es).readByte adr = s.readByte adr := rfl
@[simp] theorem setInputs_pixel (s : State) (es : List Event) (i j : Nat) : (s.setInputs es).pixel i j = s.pixel i j := rfl
@[simp] theorem setInputs_base (s : State) (es : List Event) : (s.setInputs es).base = s.base := rfl

/-! ### setStarted -/

@[simp] theorem setStarted_params (s : State) : (s.setStarted).params = s.params := rfl
@[simp] theorem setStarted_v (s : State) : (s.setStarted).v = s.v := rfl
@[simp] theorem setStarted_I (s : State) : (s.setStarted).I = s.I := rfl
@[simp] theorem setStarted_pc (s : State) : (s.setStarted).pc = s.pc := rfl
@[simp] theorem setStarted_stack (s : State) : (s.setStarted).stack = s.stack := rfl
@[simp] theorem setStarted_sp (s : State) : (s.setStarted).sp = s.sp := rfl
@[simp] theorem setStarted_dt (s : State) : (s.setStarted).dt = s.dt := rfl
@[simp] theorem setStarted_st (s : State) : (s.setStarted).st = s.st := rfl
@[simp] theorem setStarted_fb (s : State) : (s.setStarted).fb = s.fb := rfl
@[simp] theorem setStarted_dirty (s : State) : (s.setStarted).dirty = s.dirty := rfl
@[simp] theorem setStarted_runState (s : State) : (s.setStarted).runState = s.runState := rfl
@[simp] theorem setStarted_waitReg (s : State) : (s.setStarted).waitReg = s.waitReg := rfl
@[simp] theorem setStarted_faultCause (s : State) : (s.setStarted).faultCause = s.faultCause := rfl
@[simp] theorem setStarted_faultPc (s : State) : (s.setStarted).faultPc = s.faultPc := rfl
@[simp] theorem setStarted_faultInfo (s : State) : (s.setStarted).faultInfo = s.faultInfo := rfl
@[simp] theorem setStarted_mem (s : State) : (s.setStarted).mem = s.mem := rfl
@[simp] theorem setStarted_keysHeld (s : State) : (s.setStarted).keysHeld = s.keysHeld := rfl
@[simp] theorem setStarted_rnd (s : State) : (s.setStarted).rnd = s.rnd := rfl
@[simp] theorem setStarted_forcePresents (s : State) : (s.setStarted).forcePresents = s.forcePresents := rfl
@[simp] theorem setStarted_loadErrors (s : State) : (s.setStarted).loadErrors = s.loadErrors := rfl
@[simp] theorem setStarted_inputs (s : State) : (s.setStarted).inputs = s.inputs := rfl
@[simp] theorem setStarted_draws (s : State) : (s.setStarted).draws = s.draws := rfl
@[simp] theorem setStarted_started (s : State) : (s.setStarted).started = true := rfl
@[simp] theorem setStarted_reg (s : State) (r : Reg) : (s.setStarted).reg r = s.reg r := rfl
@[simp] theorem setStarted_readByte (s : State) (adr : Nat) : (s.setStarted).readByte adr = s.readByte adr := rfl
@[simp] theorem setStarted_pixel (s : State) (i j : Nat) : (s.setStarted).pixel i j = s.pixel i j := rfl
@[simp] theorem setStarted_base (s : State) : (s.setStarted).base = s.base := rfl

/-! ### advance -/

@[simp] theorem advance_params (s : State) : (s.advance).params = s.params := rfl
@[simp] theorem advance_v (s : State) : (s.advance).v = s.v := rfl
@[simp] theorem advance_I (s : State) : (s.advance).I = s.I := rfl
@[simp] theorem advance_pc (s : State) : (s.advance).pc = s.pc + 2 := rfl
@[simp] theorem advance_stack (s : State) : (s.advance).stack = s.stack := rfl
@[simp] theorem advance_sp (s : State) : (s.advance).sp = s.sp := rfl
@[simp] theorem advance_dt (s : State) : (s.advance).dt = s.dt := rfl
@[simp] theorem advance_st (s : State) : (s.advance).st = s.st := rfl
@[simp] theorem advance_fb (s : State) : (s.advance).fb = s.fb := rfl
@[simp] theorem advance_dirty (s : State) : (s.advance).dirty = s.dirty := rfl
@[simp] theorem advance_runState (s : State) : (s.advance).runState = s.runState := rfl
@[simp] theorem advance_waitReg (s : State) : (s.advance).waitReg = s.waitReg := rfl
@[simp] theorem advance_faultCause (s : State) : (s.advance).faultCause = s.faultCause := rfl
@[simp] theorem advance_faultPc (s : State) : (s.advance).faultPc = s.faultPc := rfl
@[simp] theorem advance_faultInfo (s : State) : (s.advance).faultInfo = s.faultInfo := rfl
@[simp] theorem advance_mem (s : State) : (s.advance).mem = s.mem := rfl
@[simp] theorem advance_keysHeld (s : State) : (s.advance).keysHeld = s.keysHeld := rfl
@[simp] theorem advance_rnd (s : State) : (s.advance).rnd = s.rnd := rfl
@[simp] theorem advance_forcePresents (s : State) : (s.advance).forcePresents = s.forcePresents := rfl
@[simp] theorem advance_loadErrors (s : State) : (s.advance).loadErrors = s.loadErrors := rfl
@[simp] theorem advance_inputs (s : State) : (s.advance).inputs = s.inputs := rfl
@[simp] theorem advance_draws (s : State) : (s.advance).draws = s.draws := rfl
@[simp] theorem advance_started (s : State) : (s.advance).started = s.started := rfl
@[simp] theorem advance_reg (s : State) (r : Reg) : (s.advance).reg r = s.reg r := rfl
@[simp] theorem advance_readByte (s : State) (adr : Nat) : (s.advance).readByte adr = s.readByte adr := rfl
@[simp] theorem advance_pixel (s : State) (i j : Nat) : (s.advance).pixel i j = s.pixel i j := rfl
@[simp] theorem advance_base (s : State) : (s.advance).base = s.base := rfl

/-! ### skipIf -/

@[simp] theorem skipIf_params (s : State) (c : Bool) : (s.skipIf c).params = s.params := rfl
@[simp] theorem skipIf_v (s : State) (c : Bool) : (s.skipIf c).v = s.v := rfl
@[simp] theorem skipIf_I (s : State) (c : Bool) : (s.skipIf c).I = s.I := rfl
@[simp] theorem skipIf_pc (s : State) (c : Bool) : (s.skipIf c).pc = s.pc + if c then 4 else 2 := rfl
@[simp] theorem skipIf_stack (s : State) (c : Bool) : (s.skipIf c).stack = s.stack := rfl
@[simp] theorem skipIf_sp (s : State) (c : Bool) : (s.skipIf c).sp = s.sp := rfl
@[simp] theorem skipIf_dt (s : State) (c : Bool) : (s.skipIf c).dt = s.dt := rfl
@[simp] theorem skipIf_st (s : State) (c : Bool) : (s.skipIf c).st = s.st := rfl
@[simp] theorem skipIf_fb (s : State) (c : Bool) : (s.skipIf c).fb = s.fb := rfl
@[simp] theorem skipIf_dirty (s : State) (c : Bool) : (s.skipIf c).dirty = s.dirty := rfl
@[simp] theorem skipIf_runState (s : State) (c : Bool) : (s.skipIf c).runState = s.runState := rfl
@[simp] theorem skipIf_waitReg (s : State) (c : Bool) : (s.skipIf c).waitReg = s.waitReg := rfl
@[simp] theorem skipIf_faultCause (s : State) (c : Bool) : (s.skipIf c).faultCause = s.faultCause := rfl
@[simp] theorem skipIf_faultPc (s : State) (c : Bool) : (s.skipIf c).faultPc = s.faultPc := rfl
@[simp] theorem skipIf_faultInfo (s : State) (c : Bool) : (s.skipIf c).faultInfo = s.faultInfo := rfl
@[simp] theorem skipIf_mem (s : State) (c : Bool) : (s.skipIf c).mem = s.mem := rfl
@[simp] theorem skipIf_keysHeld (s : State) (c : Bool) : (s.skipIf c).keysHeld = s.keysHeld := rfl
@[simp] theorem skipIf_rnd (s : State) (c : Bool) : (s.skipIf c).rnd = s.rnd := rfl
@[simp] theorem skipIf_forcePresents (s : State) (c : Bool) : (s.skipIf c).forcePresents = s.forcePresents := rfl
@[simp] theorem skipIf_loadErrors (s : State) (c : Bool) : (s.skipIf c).loadErrors = s.loadErrors := rfl
@[simp] theorem skipIf_inputs (s : State) (c : Bool) : (s.skipIf c).inputs = s.inputs := rfl
@[simp] theorem skipIf_draws (s : State) (c : Bool) : (s.skipIf c).draws = s.draws := rfl
@[simp] theorem skipIf_started (s : State) (c : Bool) : (s.skipIf c).started = s.started := rfl
@[simp] theorem skipIf_reg (s : State) (c : Bool) (r : Reg) : (s.skipIf c).reg r = s.reg r := rfl
@[simp] theorem skipIf_readByte (s : State) (c : Bool) (adr : Nat) : (s.skipIf c).readByte adr = s.readByte adr := rfl
@[simp] theorem skipIf_pixel (s : State) (c : Bool) (i j : Nat) : (s.skipIf c).pixel i j = s.pixel i j := rfl
@[simp] theorem skipIf_base (s : State) (c : Bool) : (s.skipIf c).base = s.base := rfl

/-! ### raise -/

@[simp] theorem raise_params (s : State) (t : Trap) : (s.raise t).params = s.params := rfl
@[simp] theorem raise_v (s : State) (t : Trap) : (s.raise t).v = s.v := rfl
@[simp] theorem raise_I (s : State) (t : Trap) : (s.raise t).I = s.I := rfl
@[simp] theorem raise_pc (s : State) (t : Trap) : (s.raise t).pc = s.pc := rfl
@[simp] theorem raise_stack (s : State) (t : Trap) : (s.raise t).stack = s.stack := rfl
@[simp] theorem raise_sp (s : State) (t : Trap) : (s.raise t).sp = s.sp := rfl
@[simp] theorem raise_dt (s : State) (t : Trap) : (s.raise t).dt = s.dt := rfl
@[simp] theorem raise_st (s : State) (t : Trap) : (s.raise t).st = s.st := rfl
@[simp] theorem raise_fb (s : State) (t : Trap) : (s.raise t).fb = s.fb := rfl
@[simp] theorem raise_dirty (s : State) (t : Trap) : (s.raise t).dirty = s.dirty := rfl
@[simp] theorem raise_runState (s : State) (t : Trap) : (s.raise t).runState = .faulted := rfl
@[simp] theorem raise_waitReg (s : State) (t : Trap) : (s.raise t).waitReg = s.waitReg := rfl
@[simp] theorem raise_faultCause (s : State) (t : Trap) : (s.raise t).faultCause = t.cause := rfl
@[simp] theorem raise_faultPc (s : State) (t : Trap) : (s.raise t).faultPc = s.pc := rfl
@[simp] theorem raise_faultInfo (s : State) (t : Trap) : (s.raise t).faultInfo = t.info := rfl
@[simp] theorem raise_mem (s : State) (t : Trap) : (s.raise t).mem = s.mem := rfl
@[simp] theorem raise_keysHeld (s : State) (t : Trap) : (s.raise t).keysHeld = s.keysHeld := rfl
@[simp] theorem raise_rnd (s : State) (t : Trap) : (s.raise t).rnd = s.rnd := rfl
@[simp] theorem raise_forcePresents (s : State) (t : Trap) : (s.raise t).forcePresents = s.forcePresents := rfl
@[simp] theorem raise_loadErrors (s : State) (t : Trap) : (s.raise t).loadErrors = s.loadErrors := rfl
@[simp] theorem raise_inputs (s : State) (t : Trap) : (s.raise t).inputs = s.inputs := rfl
@[simp] theorem raise_draws (s : State) (t : Trap) : (s.raise t).draws = s.draws := rfl
@[simp] theorem raise_started (s : State) (t : Trap) : (s.raise t).started = s.started := rfl
@[simp] theorem raise_reg (s : State) (t : Trap) (r : Reg) : (s.raise t).reg r = s.reg r := rfl
@[simp] theorem raise_readByte (s : State) (t : Trap) (adr : Nat) : (s.raise t).readByte adr = s.readByte adr := rfl
@[simp] theorem raise_pixel (s : State) (t : Trap) (i j : Nat) : (s.raise t).pixel i j = s.pixel i j := rfl
@[simp] theorem raise_base (s : State) (t : Trap) : (s.raise t).base = s.base := rfl

/-! ### storeBytes -/

@[simp] theorem storeBytes_params (s : State) (a : Nat) (ws : List Byte) : (s.storeBytes a ws).params = s.params := rfl
@[simp] theorem storeBytes_v (s : State) (a : Nat) (ws : List Byte) : (s.storeBytes a ws).v = s.v := rfl
@[simp] theorem storeBytes_I (s : State) (a : Nat) (ws : List Byte) : (s.storeBytes a ws).I = s.I := rfl
@[simp] theorem storeBytes_pc (s : State) (a : Nat) (ws : List Byte) : (s.storeBytes a ws).pc = s.pc := rfl
@[simp] theorem storeBytes_stack (s : State) (a : Nat) (ws : List Byte) : (s.storeBytes a ws).stack = s.stack := rfl
@[simp] theorem storeBytes_sp (s : State) (a : Nat) (ws : List Byte) : (s.storeBytes a ws).sp = s.sp := rfl
@[simp] theorem storeBytes_dt (s : State) (a : Nat) (ws : List Byte) : (s.storeBytes a ws).dt = s.dt := rfl
@[simp] theorem storeBytes_st (s : State) (a : Nat) (ws : List Byte) : (s.storeBytes a ws).st = s.st := rfl
@[simp] theorem storeBytes_fb (s : State) (a : Nat) (ws : List Byte) : (s.storeBytes a ws).fb = s.fb := rfl
@[simp] theorem storeBytes_dirty (s : State) (a : Nat) (ws : List Byte) : (s.storeBytes a ws).dirty = s.dirty := rfl
@[simp] theorem storeBytes_runState (s : State) (a : Nat) (ws : List Byte) : (s.storeBytes a ws).runState = s.runState := rfl
@[simp] theorem storeBytes_waitReg (s : State) (a : Nat) (ws : List Byte) : (s.storeBytes a ws).waitReg = s.waitReg := rfl
@[simp] theorem storeBytes_faultCause (s : State) (a : Nat) (ws : List Byte) : (s.storeBytes a ws).faultCause = s.faultCause := rfl
@[simp] theorem storeBytes_faultPc (s : State) (a : Nat) (ws : List Byte) : (s.storeBytes a ws).faultPc = s.faultPc := rfl
@[simp] theorem storeBytes_faultInfo (s : State) (a : Nat) (ws : List Byte) : (s.storeBytes a ws).faultInfo = s.faultInfo := rfl
@[simp] theorem storeBytes_mem (s : State) (a : Nat) (ws : List Byte) : (s.storeBytes a ws).mem = Memory.writeAll s.base s.mem a ws := rfl
@[simp] theorem storeBytes_keysHeld (s : State) (a : Nat) (ws : List Byte) : (s.storeBytes a ws).keysHeld = s.keysHeld := rfl
@[simp] theorem storeBytes_rnd (s : State) (a : Nat) (ws : List Byte) : (s.storeBytes a ws).rnd = s.rnd := rfl
@[simp] theorem storeBytes_forcePresents (s : State) (a : Nat) (ws : List Byte) : (s.storeBytes a ws).forcePresents = s.forcePresents := rfl
@[simp] theorem storeBytes_loadErrors (s : State) (a : Nat) (ws : List Byte) : (s.storeBytes a ws).loadErrors = s.loadErrors := rfl
@[simp] theorem storeBytes_inputs (s : State) (a : Nat) (ws : List Byte) : (s.storeBytes a ws).inputs = s.inputs := rfl
@[simp] theorem storeBytes_draws (s : State) (a : Nat) (ws : List Byte) : (s.storeBytes a ws).draws = s.draws := rfl
@[simp] theorem storeBytes_started (s : State) (a : Nat) (ws : List Byte) : (s.storeBytes a ws).started = s.started := rfl
@[simp] theorem storeBytes_reg (s : State) (a : Nat) (ws : List Byte) (r : Reg) : (s.storeBytes a ws).reg r = s.reg r := rfl
@[simp] theorem storeBytes_pixel (s : State) (a : Nat) (ws : List Byte) (i j : Nat) : (s.storeBytes a ws).pixel i j = s.pixel i j := rfl
@[simp] theorem storeBytes_base (s : State) (a : Nat) (ws : List Byte) : (s.storeBytes a ws).base = s.base := rfl

/-! ### awaitKey -/

@[simp] theorem awaitKey_params (s : State) (x : Reg) : (s.awaitKey x).params = s.params := rfl
@[simp] theorem awaitKey_v (s : State) (x : Reg) : (s.awaitKey x).v = s.v := rfl
@[simp] theorem awaitKey_I (s : State) (x : Reg) : (s.awaitKey x).I = s.I := rfl
@[simp] theorem awaitKey_pc (s : State) (x : Reg) : (s.awaitKey x).pc = s.pc := rfl
@[simp] theorem awaitKey_stack (s : State) (x : Reg) : (s.awaitKey x).stack = s.stack := rfl
@[simp] theorem awaitKey_sp (s : State) (x : Reg) : (s.awaitKey x).sp = s.sp := rfl
@[simp] theorem awaitKey_dt (s : State) (x : Reg) : (s.awaitKey x).dt = s.dt := rfl
@[simp] theorem awaitKey_st (s : State) (x : Reg) : (s.awaitKey x).st = s.st := rfl
@[simp] theorem awaitKey_fb (s : State) (x : Reg) : (s.awaitKey x).fb = s.fb := rfl
@[simp] theorem awaitKey_dirty (s : State) (x : Reg) : (s.awaitKey x).dirty = s.dirty := rfl
@[simp] theorem awaitKey_runState (s : State) (x : Reg) : (s.awaitKey x).runState = .awaitKey := rfl
@[simp] theorem awaitKey_waitReg (s : State) (x : Reg) : (s.awaitKey x).waitReg = x := rfl
@[simp] theorem awaitKey_faultCause (s : State) (x : Reg) : (s.awaitKey x).faultCause = s.faultCause := rfl
@[simp] theorem awaitKey_faultPc (s : State) (x : Reg) : (s.awaitKey x).faultPc = s.faultPc := rfl
@[simp] theorem awaitKey_faultInfo (s : State) (x : Reg) : (s.awaitKey x).faultInfo = s.faultInfo := rfl
@[simp] theorem awaitKey_mem (s : State) (x : Reg) : (s.awaitKey x).mem = s.mem := rfl
@[simp] theorem awaitKey_keysHeld (s : State) (x : Reg) : (s.awaitKey x).keysHeld = s.keysHeld := rfl
@[simp] theorem awaitKey_rnd (s : State) (x : Reg) : (s.awaitKey x).rnd = s.rnd := rfl
@[simp] theorem awaitKey_forcePresents (s : State) (x : Reg) : (s.awaitKey x).forcePresents = s.forcePresents + 1 := rfl
@[simp] theorem awaitKey_loadErrors (s : State) (x : Reg) : (s.awaitKey x).loadErrors = s.loadErrors := rfl
@[simp] theorem awaitKey_inputs (s : State) (x : Reg) : (s.awaitKey x).inputs = s.inputs := rfl
@[simp] theorem awaitKey_draws (s : State) (x : Reg) : (s.awaitKey x).draws = s.draws := rfl
@[simp] theorem awaitKey_started (s : State) (x : Reg) : (s.awaitKey x).started = s.started := rfl
@[simp] theorem awaitKey_reg (s : State) (x : Reg) (r : Reg) : (s.awaitKey x).reg r = s.reg r := rfl
@[simp] theorem awaitKey_readByte (s : State) (x : Reg) (adr : Nat) : (s.awaitKey x).readByte adr = s.readByte adr := rfl
@[simp] theorem awaitKey_pixel (s : State) (x : Reg) (i j : Nat) : (s.awaitKey x).pixel i j = s.pixel i j := rfl
@[simp] theorem awaitKey_base (s : State) (x : Reg) : (s.awaitKey x).base = s.base := rfl

/-! ### sampledKeys -/

@[simp] theorem sampledKeys_params (s : State) : (s.sampledKeys).params = s.params := rfl
@[simp] theorem sampledKeys_v (s : State) : (s.sampledKeys).v = s.v := rfl
@[simp] theorem sampledKeys_I (s : State) : (s.sampledKeys).I = s.I := rfl
@[simp] theorem sampledKeys_pc (s : State) : (s.sampledKeys).pc = s.pc := rfl
@[simp] theorem sampledKeys_stack (s : State) : (s.sampledKeys).stack = s.stack := rfl
@[simp] theorem sampledKeys_sp (s : State) : (s.sampledKeys).sp = s.sp := rfl
@[simp] theorem sampledKeys_dt (s : State) : (s.sampledKeys).dt = s.dt := rfl
@[simp] theorem sampledKeys_st (s : State) : (s.sampledKeys).st = s.st := rfl
@[simp] theorem sampledKeys_fb (s : State) : (s.sampledKeys).fb = s.fb := rfl
@[simp] theorem sampledKeys_dirty (s : State) : (s.sampledKeys).dirty = s.dirty := rfl
@[simp] theorem sampledKeys_runState (s : State) : (s.sampledKeys).runState = s.runState := rfl
@[simp] theorem sampledKeys_waitReg (s : State) : (s.sampledKeys).waitReg = s.waitReg := rfl
@[simp] theorem sampledKeys_faultCause (s : State) : (s.sampledKeys).faultCause = s.faultCause := rfl
@[simp] theorem sampledKeys_faultPc (s : State) : (s.sampledKeys).faultPc = s.faultPc := rfl
@[simp] theorem sampledKeys_faultInfo (s : State) : (s.sampledKeys).faultInfo = s.faultInfo := rfl
@[simp] theorem sampledKeys_mem (s : State) : (s.sampledKeys).mem = s.mem := rfl
@[simp] theorem sampledKeys_keysHeld (s : State) : (s.sampledKeys).keysHeld = s.keysHeld := rfl
@[simp] theorem sampledKeys_rnd (s : State) : (s.sampledKeys).rnd = s.rnd := rfl
@[simp] theorem sampledKeys_forcePresents (s : State) : (s.sampledKeys).forcePresents = s.forcePresents := rfl
@[simp] theorem sampledKeys_loadErrors (s : State) : (s.sampledKeys).loadErrors = s.loadErrors := rfl
@[simp] theorem sampledKeys_inputs (s : State) : (s.sampledKeys).inputs = s.inputs := rfl
@[simp] theorem sampledKeys_draws (s : State) : (s.sampledKeys).draws = s.draws + 1 := rfl
@[simp] theorem sampledKeys_started (s : State) : (s.sampledKeys).started = s.started := rfl
@[simp] theorem sampledKeys_reg (s : State) (r : Reg) : (s.sampledKeys).reg r = s.reg r := rfl
@[simp] theorem sampledKeys_readByte (s : State) (adr : Nat) : (s.sampledKeys).readByte adr = s.readByte adr := rfl
@[simp] theorem sampledKeys_pixel (s : State) (i j : Nat) : (s.sampledKeys).pixel i j = s.pixel i j := rfl
@[simp] theorem sampledKeys_base (s : State) : (s.sampledKeys).base = s.base := rfl

/-! ### usedRnd -/

@[simp] theorem usedRnd_params (s : State) : (s.usedRnd).params = s.params := rfl
@[simp] theorem usedRnd_v (s : State) : (s.usedRnd).v = s.v := rfl
@[simp] theorem usedRnd_I (s : State) : (s.usedRnd).I = s.I := rfl
@[simp] theorem usedRnd_pc (s : State) : (s.usedRnd).pc = s.pc := rfl
@[simp] theorem usedRnd_stack (s : State) : (s.usedRnd).stack = s.stack := rfl
@[simp] theorem usedRnd_sp (s : State) : (s.usedRnd).sp = s.sp := rfl
@[simp] theorem usedRnd_dt (s : State) : (s.usedRnd).dt = s.dt := rfl
@[simp] theorem usedRnd_st (s : State) : (s.usedRnd).st = s.st := rfl
@[simp] theorem usedRnd_fb (s : State) : (s.usedRnd).fb = s.fb := rfl
@[simp] theorem usedRnd_dirty (s : State) : (s.usedRnd).dirty = s.dirty := rfl
@[simp] theorem usedRnd_runState (s : State) : (s.usedRnd).runState = s.runState := rfl
@[simp] theorem usedRnd_waitReg (s : State) : (s.usedRnd).waitReg = s.waitReg := rfl
@[simp] theorem usedRnd_faultCause (s : State) : (s.usedRnd).faultCause = s.faultCause := rfl
@[simp] theorem usedRnd_faultPc (s : State) : (s.usedRnd).faultPc = s.faultPc := rfl
@[simp] theorem usedRnd_faultInfo (s : State) : (s.usedRnd).faultInfo = s.faultInfo := rfl
@[simp] theorem usedRnd_mem (s : State) : (s.usedRnd).mem = s.mem := rfl
@[simp] theorem usedRnd_keysHeld (s : State) : (s.usedRnd).keysHeld = s.keysHeld := rfl
@[simp] theorem usedRnd_rnd (s : State) : (s.usedRnd).rnd = none := rfl
@[simp] theorem usedRnd_forcePresents (s : State) : (s.usedRnd).forcePresents = s.forcePresents := rfl
@[simp] theorem usedRnd_loadErrors (s : State) : (s.usedRnd).loadErrors = s.loadErrors := rfl
@[simp] theorem usedRnd_inputs (s : State) : (s.usedRnd).inputs = s.inputs := rfl
@[simp] theorem usedRnd_draws (s : State) : (s.usedRnd).draws = s.draws + 1 := rfl
@[simp] theorem usedRnd_started (s : State) : (s.usedRnd).started = s.started := rfl
@[simp] theorem usedRnd_reg (s : State) (r : Reg) : (s.usedRnd).reg r = s.reg r := rfl
@[simp] theorem usedRnd_readByte (s : State) (adr : Nat) : (s.usedRnd).readByte adr = s.readByte adr := rfl
@[simp] theorem usedRnd_pixel (s : State) (i j : Nat) : (s.usedRnd).pixel i j = s.pixel i j := rfl
@[simp] theorem usedRnd_base (s : State) : (s.usedRnd).base = s.base := rfl

/-! ### loadRegs -/

@[simp] theorem loadRegs_params (s : State) (bytes : List Byte) : (s.loadRegs bytes).params = s.params := rfl
@[simp] theorem loadRegs_v (s : State) (bytes : List Byte) : (s.loadRegs bytes).v = loadFrom s.v 0 bytes := rfl
@[simp] theorem loadRegs_I (s : State) (bytes : List Byte) : (s.loadRegs bytes).I = s.I := rfl
@[simp] theorem loadRegs_pc (s : State) (bytes : List Byte) : (s.loadRegs bytes).pc = s.pc := rfl
@[simp] theorem loadRegs_stack (s : State) (bytes : List Byte) : (s.loadRegs bytes).stack = s.stack := rfl
@[simp] theorem loadRegs_sp (s : State) (bytes : List Byte) : (s.loadRegs bytes).sp = s.sp := rfl
@[simp] theorem loadRegs_dt (s : State) (bytes : List Byte) : (s.loadRegs bytes).dt = s.dt := rfl
@[simp] theorem loadRegs_st (s : State) (bytes : List Byte) : (s.loadRegs bytes).st = s.st := rfl
@[simp] theorem loadRegs_fb (s : State) (bytes : List Byte) : (s.loadRegs bytes).fb = s.fb := rfl
@[simp] theorem loadRegs_dirty (s : State) (bytes : List Byte) : (s.loadRegs bytes).dirty = s.dirty := rfl
@[simp] theorem loadRegs_runState (s : State) (bytes : List Byte) : (s.loadRegs bytes).runState = s.runState := rfl
@[simp] theorem loadRegs_waitReg (s : State) (bytes : List Byte) : (s.loadRegs bytes).waitReg = s.waitReg := rfl
@[simp] theorem loadRegs_faultCause (s : State) (bytes : List Byte) : (s.loadRegs bytes).faultCause = s.faultCause := rfl
@[simp] theorem loadRegs_faultPc (s : State) (bytes : List Byte) : (s.loadRegs bytes).faultPc = s.faultPc := rfl
@[simp] theorem loadRegs_faultInfo (s : State) (bytes : List Byte) : (s.loadRegs bytes).faultInfo = s.faultInfo := rfl
@[simp] theorem loadRegs_mem (s : State) (bytes : List Byte) : (s.loadRegs bytes).mem = s.mem := rfl
@[simp] theorem loadRegs_keysHeld (s : State) (bytes : List Byte) : (s.loadRegs bytes).keysHeld = s.keysHeld := rfl
@[simp] theorem loadRegs_rnd (s : State) (bytes : List Byte) : (s.loadRegs bytes).rnd = s.rnd := rfl
@[simp] theorem loadRegs_forcePresents (s : State) (bytes : List Byte) : (s.loadRegs bytes).forcePresents = s.forcePresents := rfl
@[simp] theorem loadRegs_loadErrors (s : State) (bytes : List Byte) : (s.loadRegs bytes).loadErrors = s.loadErrors := rfl
@[simp] theorem loadRegs_inputs (s : State) (bytes : List Byte) : (s.loadRegs bytes).inputs = s.inputs := rfl
@[simp] theorem loadRegs_draws (s : State) (bytes : List Byte) : (s.loadRegs bytes).draws = s.draws := rfl
@[simp] theorem loadRegs_started (s : State) (bytes : List Byte) : (s.loadRegs bytes).started = s.started := rfl
@[simp] theorem loadRegs_readByte (s : State) (bytes : List Byte) (adr : Nat) : (s.loadRegs bytes).readByte adr = s.readByte adr := rfl
@[simp] theorem loadRegs_pixel (s : State) (bytes : List Byte) (i j : Nat) : (s.loadRegs bytes).pixel i j = s.pixel i j := rfl
@[simp] theorem loadRegs_base (s : State) (bytes : List Byte) : (s.loadRegs bytes).base = s.base := rfl

/-! ### setFlag -/

@[simp] theorem setFlag_params (s : State) (c : Bool) : (s.setFlag c).params = s.params := rfl
@[simp] theorem setFlag_v (s : State) (c : Bool) : (s.setFlag c).v = s.v.set 15 (flagByte c) := rfl
@[simp] theorem setFlag_I (s : State) (c : Bool) : (s.setFlag c).I = s.I := rfl
@[simp] theorem setFlag_pc (s : State) (c : Bool) : (s.setFlag c).pc = s.pc := rfl
@[simp] theorem setFlag_stack (s : State) (c : Bool) : (s.setFlag c).stack = s.stack := rfl
@[simp] theorem setFlag_sp (s : State) (c : Bool) : (s.setFlag c).sp = s.sp := rfl
@[simp] theorem setFlag_dt (s : State) (c : Bool) : (s.setFlag c).dt = s.dt := rfl
@[simp] theorem setFlag_st (s : State) (c : Bool) : (s.setFlag c).st = s.st := rfl
@[simp] theorem setFlag_fb (s : State) (c : Bool) : (s.setFlag c).fb = s.fb := rfl
@[simp] theorem setFlag_dirty (s : State) (c : Bool) : (s.setFlag c).dirty = s.dirty := rfl
@[simp] theorem setFlag_runState (s : State) (c : Bool) : (s.setFlag c).runState = s.runState := rfl
@[simp] theorem setFlag_waitReg (s : State) (c : Bool) : (s.setFlag c).waitReg = s.waitReg := rfl
@[simp] theorem setFlag_faultCause (s : State) (c : Bool) : (s.setFlag c).faultCause = s.faultCause := rfl
@[simp] theorem setFlag_faultPc (s : State) (c : Bool) : (s.setFlag c).faultPc = s.faultPc := rfl
@[simp] theorem setFlag_faultInfo (s : State) (c : Bool) : (s.setFlag c).faultInfo = s.faultInfo := rfl
@[simp] theorem setFlag_mem (s : State) (c : Bool) : (s.setFlag c).mem = s.mem := rfl
@[simp] theorem setFlag_keysHeld (s : State) (c : Bool) : (s.setFlag c).keysHeld = s.keysHeld := rfl
@[simp] theorem setFlag_rnd (s : State) (c : Bool) : (s.setFlag c).rnd = s.rnd := rfl
@[simp] theorem setFlag_forcePresents (s : State) (c : Bool) : (s.setFlag c).forcePresents = s.forcePresents := rfl
@[simp] theorem setFlag_loadErrors (s : State) (c : Bool) : (s.setFlag c).loadErrors = s.loadErrors := rfl
@[simp] theorem setFlag_inputs (s : State) (c : Bool) : (s.setFlag c).inputs = s.inputs := rfl
@[simp] theorem setFlag_draws (s : State) (c : Bool) : (s.setFlag c).draws = s.draws := rfl
@[simp] theorem setFlag_started (s : State) (c : Bool) : (s.setFlag c).started = s.started := rfl
@[simp] theorem setFlag_readByte (s : State) (c : Bool) (adr : Nat) : (s.setFlag c).readByte adr = s.readByte adr := rfl
@[simp] theorem setFlag_pixel (s : State) (c : Bool) (i j : Nat) : (s.setFlag c).pixel i j = s.pixel i j := rfl
@[simp] theorem setFlag_base (s : State) (c : Bool) : (s.setFlag c).base = s.base := rfl

/-! ### setRegFlag -/

@[simp] theorem setRegFlag_params (s : State) (x : Reg) (r : Byte) (c : Bool) : (s.setRegFlag x r c).params = s.params := rfl
@[simp] theorem setRegFlag_v (s : State) (x : Reg) (r : Byte) (c : Bool) : (s.setRegFlag x r c).v = (s.v.set x.val r).set 15 (flagByte c) := rfl
@[simp] theorem setRegFlag_I (s : State) (x : Reg) (r : Byte) (c : Bool) : (s.setRegFlag x r c).I = s.I := rfl
@[simp] theorem setRegFlag_pc (s : State) (x : Reg) (r : Byte) (c : Bool) : (s.setRegFlag x r c).pc = s.pc := rfl
@[simp] theorem setRegFlag_stack (s : State) (x : Reg) (r : Byte) (c : Bool) : (s.setRegFlag x r c).stack = s.stack := rfl
@[simp] theorem setRegFlag_sp (s : State) (x : Reg) (r : Byte) (c : Bool) : (s.setRegFlag x r c).sp = s.sp := rfl
@[simp] theorem setRegFlag_dt (s : State) (x : Reg) (r : Byte) (c : Bool) : (s.setRegFlag x r c).dt = s.dt := rfl
@[simp] theorem setRegFlag_st (s : State) (x : Reg) (r : Byte) (c : Bool) : (s.setRegFlag x r c).st = s.st := rfl
@[simp] theorem setRegFlag_fb (s : State) (x : Reg) (r : Byte) (c : Bool) : (s.setRegFlag x r c).fb = s.fb := rfl
@[simp] theorem setRegFlag_dirty (s : State) (x : Reg) (r : Byte) (c : Bool) : (s.setRegFlag x r c).dirty = s.dirty := rfl
@[simp] theorem setRegFlag_runState (s : State) (x : Reg) (r : Byte) (c : Bool) : (s.setRegFlag x r c).runState = s.runState := rfl
@[simp] theorem setRegFlag_waitReg (s : State) (x : Reg) (r : Byte) (c : Bool) : (s.setRegFlag x r c).waitReg = s.waitReg := rfl
@[simp] theorem setRegFlag_faultCause (s : State) (x : Reg) (r : Byte) (c : Bool) : (s.setRegFlag x r c).faultCause = s.faultCause := rfl
@[simp] theorem setRegFlag_faultPc (s : State) (x : Reg) (r : Byte) (c : Bool) : (s.setRegFlag x r c).faultPc = s.faultPc := rfl
@[simp] theorem setRegFlag_faultInfo (s : State) (x : Reg) (r : Byte) (c : Bool) : (s.setRegFlag x r c).faultInfo = s.faultInfo := rfl
@[simp] theorem setRegFlag_mem (s : State) (x : Reg) (r : Byte) (c : Bool) : (s.setRegFlag x r c).mem = s.mem := rfl
@[simp] theorem setRegFlag_keysHeld (s : State) (x : Reg) (r : Byte) (c : Bool) : (s.setRegFlag x r c).keysHeld = s.keysHeld := rfl
@[simp] theorem setRegFlag_rnd (s : State) (x : Reg) (r : Byte) (c : Bool) : (s.setRegFlag x r c).rnd = s.rnd := rfl
@[simp] theorem setRegFlag_forcePresents (s : State) (x : Reg) (r : Byte) (c : Bool) : (s.setRegFlag x r c).forcePresents = s.forcePresents := rfl
@[simp] theorem setRegFlag_loadErrors (s : State) (x : Reg) (r : Byte) (c : Bool) : (s.setRegFlag x r c).loadErrors = s.loadErrors := rfl
@[simp] theorem setRegFlag_inputs (s : State) (x : Reg) (r : Byte) (c : Bool) : (s.setRegFlag x r c).inputs = s.inputs := rfl
@[simp] theorem setRegFlag_draws (s : State) (x : Reg) (r : Byte) (c : Bool) : (s.setRegFlag x r c).draws = s.draws := rfl
@[simp] theorem setRegFlag_started (s : State) (x : Reg) (r : Byte) (c : Bool) : (s.setRegFlag x r c).started = s.started := rfl
@[simp] theorem setRegFlag_readByte (s : State) (x : Reg) (r : Byte) (c : Bool) (adr : Nat) : (s.setRegFlag x r c).readByte adr = s.readByte adr := rfl
@[simp] theorem setRegFlag_pixel (s : State) (x : Reg) (r : Byte) (c : Bool) (i j : Nat) : (s.setRegFlag x r c).pixel i j = s.pixel i j := rfl
@[simp] theorem setRegFlag_base (s : State) (x : Reg) (r : Byte) (c : Bool) : (s.setRegFlag x r c).base = s.base := rfl

/-! ### drawCells -/

@[simp] theorem drawCells_params (s : State) (cells : List (Nat × Nat)) : (s.drawCells cells).params = s.params := rfl
@[simp] theorem drawCells_v (s : State) (cells : List (Nat × Nat)) : (s.drawCells cells).v = s.v.set 15 (flagByte (Display.draw cells s.fb false).2) := rfl
@[simp] theorem drawCells_I (s : State) (cells : List (Nat × Nat)) : (s.drawCells cells).I = s.I := rfl
@[simp] theorem drawCells_pc (s : State) (cells : List (Nat × Nat)) : (s.drawCells cells).pc = s.pc := rfl
@[simp] theorem drawCells_stack (s : State) (cells : List (Nat × Nat)) : (s.drawCells cells).stack = s.stack := rfl
@[simp] theorem drawCells_sp (s : State) (cells : List (Nat × Nat)) : (s.drawCells cells).sp = s.sp := rfl
@[simp] theorem drawCells_dt (s : State) (cells : List (Nat × Nat)) : (s.drawCells cells).dt = s.dt := rfl
@[simp] theorem drawCells_st (s : State) (cells : List (Nat × Nat)) : (s.drawCells cells).st = s.st := rfl
@[simp] theorem drawCells_fb (s : State) (cells : List (Nat × Nat)) : (s.drawCells cells).fb = (Display.draw cells s.fb false).1 := rfl
@[simp] theorem drawCells_dirty (s : State) (cells : List (Nat × Nat)) : (s.drawCells cells).dirty = true := rfl
@[simp] theorem drawCells_runState (s : State) (cells : List (Nat × Nat)) : (s.drawCells cells).runState = s.runState := rfl
@[simp] theorem drawCells_waitReg (s : State) (cells : List (Nat × Nat)) : (s.drawCells cells).waitReg = s.waitReg := rfl
@[simp] theorem drawCells_faultCause (s : State) (cells : List (Nat × Nat)) : (s.drawCells cells).faultCause = s.faultCause := rfl
@[simp] theorem drawCells_faultPc (s : State) (cells : List (Nat × Nat)) : (s.drawCells cells).faultPc = s.faultPc := rfl
@[simp] theorem drawCells_faultInfo (s : State) (cells : List (Nat × Nat)) : (s.drawCells cells).faultInfo = s.faultInfo := rfl
@[simp] theorem drawCells_mem (s : State) (cells : List (Nat × Nat)) : (s.drawCells cells).mem = s.mem := rfl
@[simp] theorem drawCells_keysHeld (s : State) (cells : List (Nat × Nat)) : (s.drawCells cells).keysHeld = s.keysHeld := rfl
@[simp] theorem drawCells_rnd (s : State) (cells : List (Nat × Nat)) : (s.drawCells cells).rnd = s.rnd := rfl
@[simp] theorem drawCells_forcePresents (s : State) (cells : List (Nat × Nat)) : (s.drawCells cells).forcePresents = s.forcePresents := rfl
@[simp] theorem drawCells_loadErrors (s : State) (cells : List (Nat × Nat)) : (s.drawCells cells).loadErrors = s.loadErrors := rfl
@[simp] theorem drawCells_inputs (s : State) (cells : List (Nat × Nat)) : (s.drawCells cells).inputs = s.inputs := rfl
@[simp] theorem drawCells_draws (s : State) (cells : List (Nat × Nat)) : (s.drawCells cells).draws = s.draws := rfl
@[simp] theorem drawCells_started (s : State) (cells : List (Nat × Nat)) : (s.drawCells cells).started = s.started := rfl
@[simp] theorem drawCells_readByte (s : State) (cells : List (Nat × Nat)) (adr : Nat) : (s.drawCells cells).readByte adr = s.readByte adr := rfl
@[simp] theorem drawCells_base (s : State) (cells : List (Nat × Nat)) : (s.drawCells cells).base = s.base := rfl

/-! ### completeWait -/

@[simp] theorem completeWait_params (s : State) (k : Key) : (s.completeWait k).params = s.params := rfl
@[simp] theorem completeWait_v (s : State) (k : Key) : (s.completeWait k).v = s.v.set s.waitReg.val (BitVec.ofNat 8 k.val) := rfl
@[simp] theorem completeWait_I (s : State) (k : Key) : (s.completeWait k).I = s.I := rfl
@[simp] theorem completeWait_pc (s : State) (k : Key) : (s.completeWait k).pc = s.pc + 2 := rfl
@[simp] theorem completeWait_stack (s : State) (k : Key) : (s.completeWait k).stack = s.stack := rfl
@[simp] theorem completeWait_sp (s : State) (k : Key) : (s.completeWait k).sp = s.sp := rfl
@[simp] theorem completeWait_dt (s : State) (k : Key) : (s.completeWait k).dt = s.dt := rfl
@[simp] theorem completeWait_st (s : State) (k : Key) : (s.completeWait k).st = s.st := rfl
@[simp] theorem completeWait_fb (s : State) (k : Key) : (s.completeWait k).fb = s.fb := rfl
@[simp] theorem completeWait_dirty (s : State) (k : Key) : (s.completeWait k).dirty = s.dirty := rfl
@[simp] theorem completeWait_runState (s : State) (k : Key) : (s.completeWait k).runState = .run := rfl
@[simp] theorem completeWait_waitReg (s : State) (k : Key) : (s.completeWait k).waitReg = s.waitReg := rfl
@[simp] theorem completeWait_faultCause (s : State) (k : Key) : (s.completeWait k).faultCause = s.faultCause := rfl
@[simp] theorem completeWait_faultPc (s : State) (k : Key) : (s.completeWait k).faultPc = s.faultPc := rfl
@[simp] theorem completeWait_faultInfo (s : State) (k : Key) : (s.completeWait k).faultInfo = s.faultInfo := rfl
@[simp] theorem completeWait_mem (s : State) (k : Key) : (s.completeWait k).mem = s.mem := rfl
@[simp] theorem completeWait_keysHeld (s : State) (k : Key) : (s.completeWait k).keysHeld = s.keysHeld := rfl
@[simp] theorem completeWait_rnd (s : State) (k : Key) : (s.completeWait k).rnd = s.rnd := rfl
@[simp] theorem completeWait_forcePresents (s : State) (k : Key) : (s.completeWait k).forcePresents = s.forcePresents := rfl
@[simp] theorem completeWait_loadErrors (s : State) (k : Key) : (s.completeWait k).loadErrors = s.loadErrors := rfl
@[simp] theorem completeWait_inputs (s : State) (k : Key) : (s.completeWait k).inputs = s.inputs := rfl
@[simp] theorem completeWait_draws (s : State) (k : Key) : (s.completeWait k).draws = s.draws := rfl
@[simp] theorem completeWait_started (s : State) (k : Key) : (s.completeWait k).started = s.started := rfl
@[simp] theorem completeWait_readByte (s : State) (k : Key) (adr : Nat) : (s.completeWait k).readByte adr = s.readByte adr := rfl
@[simp] theorem completeWait_pixel (s : State) (k : Key) (i j : Nat) : (s.completeWait k).pixel i j = s.pixel i j := rfl
@[simp] theorem completeWait_base (s : State) (k : Key) : (s.completeWait k).base = s.base := rfl

/-! ### decay -/

@[simp] theorem decay_params (s : State) : (s.decay).params = s.params := rfl
@[simp] theorem decay_v (s : State) : (s.decay).v = s.v := rfl
@[simp] theorem decay_I (s : State) : (s.decay).I = s.I := rfl
@[simp] theorem decay_pc (s : State) : (s.decay).pc = s.pc := rfl
@[simp] theorem decay_stack (s : State) : (s.decay).stack = s.stack := rfl
@[simp] theorem decay_sp (s : State) : (s.decay).sp = s.sp := rfl
@[simp] theorem decay_dt (s : State) : (s.decay).dt = decrement s.dt := rfl
@[simp] theorem decay_st (s : State) : (s.decay).st = decrement s.st := rfl
@[simp] theorem decay_fb (s : State) : (s.decay).fb = s.fb := rfl
@[simp] theorem decay_dirty (s : State) : (s.decay).dirty = s.dirty := rfl
@[simp] theorem decay_runState (s : State) : (s.decay).runState = s.runState := rfl
@[simp] theorem decay_waitReg (s : State) : (s.decay).waitReg = s.waitReg := rfl
@[simp] theorem decay_faultCause (s : State) : (s.decay).faultCause = s.faultCause := rfl
@[simp] theorem decay_faultPc (s : State) : (s.decay).faultPc = s.faultPc := rfl
@[simp] theorem decay_faultInfo (s : State) : (s.decay).faultInfo = s.faultInfo := rfl
@[simp] theorem decay_mem (s : State) : (s.decay).mem = s.mem := rfl
@[simp] theorem decay_keysHeld (s : State) : (s.decay).keysHeld = s.keysHeld := rfl
@[simp] theorem decay_rnd (s : State) : (s.decay).rnd = s.rnd := rfl
@[simp] theorem decay_forcePresents (s : State) : (s.decay).forcePresents = s.forcePresents := rfl
@[simp] theorem decay_loadErrors (s : State) : (s.decay).loadErrors = s.loadErrors := rfl
@[simp] theorem decay_inputs (s : State) : (s.decay).inputs = s.inputs := rfl
@[simp] theorem decay_draws (s : State) : (s.decay).draws = s.draws := rfl
@[simp] theorem decay_started (s : State) : (s.decay).started = s.started := rfl
@[simp] theorem decay_reg (s : State) (r : Reg) : (s.decay).reg r = s.reg r := rfl
@[simp] theorem decay_readByte (s : State) (adr : Nat) : (s.decay).readByte adr = s.readByte adr := rfl
@[simp] theorem decay_pixel (s : State) (i j : Nat) : (s.decay).pixel i j = s.pixel i j := rfl
@[simp] theorem decay_base (s : State) : (s.decay).base = s.base := rfl

/-! ### driveKeys -/

@[simp] theorem driveKeys_params (s : State) (level : BitVec 16) : (s.driveKeys level).params = s.params := rfl
@[simp] theorem driveKeys_v (s : State) (level : BitVec 16) : (s.driveKeys level).v = s.v := rfl
@[simp] theorem driveKeys_I (s : State) (level : BitVec 16) : (s.driveKeys level).I = s.I := rfl
@[simp] theorem driveKeys_pc (s : State) (level : BitVec 16) : (s.driveKeys level).pc = s.pc := rfl
@[simp] theorem driveKeys_stack (s : State) (level : BitVec 16) : (s.driveKeys level).stack = s.stack := rfl
@[simp] theorem driveKeys_sp (s : State) (level : BitVec 16) : (s.driveKeys level).sp = s.sp := rfl
@[simp] theorem driveKeys_dt (s : State) (level : BitVec 16) : (s.driveKeys level).dt = s.dt := rfl
@[simp] theorem driveKeys_st (s : State) (level : BitVec 16) : (s.driveKeys level).st = s.st := rfl
@[simp] theorem driveKeys_fb (s : State) (level : BitVec 16) : (s.driveKeys level).fb = s.fb := rfl
@[simp] theorem driveKeys_dirty (s : State) (level : BitVec 16) : (s.driveKeys level).dirty = s.dirty := rfl
@[simp] theorem driveKeys_runState (s : State) (level : BitVec 16) : (s.driveKeys level).runState = s.runState := rfl
@[simp] theorem driveKeys_waitReg (s : State) (level : BitVec 16) : (s.driveKeys level).waitReg = s.waitReg := rfl
@[simp] theorem driveKeys_faultCause (s : State) (level : BitVec 16) : (s.driveKeys level).faultCause = s.faultCause := rfl
@[simp] theorem driveKeys_faultPc (s : State) (level : BitVec 16) : (s.driveKeys level).faultPc = s.faultPc := rfl
@[simp] theorem driveKeys_faultInfo (s : State) (level : BitVec 16) : (s.driveKeys level).faultInfo = s.faultInfo := rfl
@[simp] theorem driveKeys_mem (s : State) (level : BitVec 16) : (s.driveKeys level).mem = s.mem := rfl
@[simp] theorem driveKeys_keysHeld (s : State) (level : BitVec 16) : (s.driveKeys level).keysHeld = some level := rfl
@[simp] theorem driveKeys_rnd (s : State) (level : BitVec 16) : (s.driveKeys level).rnd = s.rnd := rfl
@[simp] theorem driveKeys_forcePresents (s : State) (level : BitVec 16) : (s.driveKeys level).forcePresents = s.forcePresents := rfl
@[simp] theorem driveKeys_loadErrors (s : State) (level : BitVec 16) : (s.driveKeys level).loadErrors = s.loadErrors := rfl
@[simp] theorem driveKeys_inputs (s : State) (level : BitVec 16) : (s.driveKeys level).inputs = s.inputs := rfl
@[simp] theorem driveKeys_draws (s : State) (level : BitVec 16) : (s.driveKeys level).draws = s.draws := rfl
@[simp] theorem driveKeys_started (s : State) (level : BitVec 16) : (s.driveKeys level).started = s.started := rfl
@[simp] theorem driveKeys_reg (s : State) (level : BitVec 16) (r : Reg) : (s.driveKeys level).reg r = s.reg r := rfl
@[simp] theorem driveKeys_readByte (s : State) (level : BitVec 16) (adr : Nat) : (s.driveKeys level).readByte adr = s.readByte adr := rfl
@[simp] theorem driveKeys_pixel (s : State) (level : BitVec 16) (i j : Nat) : (s.driveKeys level).pixel i j = s.pixel i j := rfl
@[simp] theorem driveKeys_base (s : State) (level : BitVec 16) : (s.driveKeys level).base = s.base := rfl

/-! ### driveRnd -/

@[simp] theorem driveRnd_params (s : State) (b : Byte) : (s.driveRnd b).params = s.params := rfl
@[simp] theorem driveRnd_v (s : State) (b : Byte) : (s.driveRnd b).v = s.v := rfl
@[simp] theorem driveRnd_I (s : State) (b : Byte) : (s.driveRnd b).I = s.I := rfl
@[simp] theorem driveRnd_pc (s : State) (b : Byte) : (s.driveRnd b).pc = s.pc := rfl
@[simp] theorem driveRnd_stack (s : State) (b : Byte) : (s.driveRnd b).stack = s.stack := rfl
@[simp] theorem driveRnd_sp (s : State) (b : Byte) : (s.driveRnd b).sp = s.sp := rfl
@[simp] theorem driveRnd_dt (s : State) (b : Byte) : (s.driveRnd b).dt = s.dt := rfl
@[simp] theorem driveRnd_st (s : State) (b : Byte) : (s.driveRnd b).st = s.st := rfl
@[simp] theorem driveRnd_fb (s : State) (b : Byte) : (s.driveRnd b).fb = s.fb := rfl
@[simp] theorem driveRnd_dirty (s : State) (b : Byte) : (s.driveRnd b).dirty = s.dirty := rfl
@[simp] theorem driveRnd_runState (s : State) (b : Byte) : (s.driveRnd b).runState = s.runState := rfl
@[simp] theorem driveRnd_waitReg (s : State) (b : Byte) : (s.driveRnd b).waitReg = s.waitReg := rfl
@[simp] theorem driveRnd_faultCause (s : State) (b : Byte) : (s.driveRnd b).faultCause = s.faultCause := rfl
@[simp] theorem driveRnd_faultPc (s : State) (b : Byte) : (s.driveRnd b).faultPc = s.faultPc := rfl
@[simp] theorem driveRnd_faultInfo (s : State) (b : Byte) : (s.driveRnd b).faultInfo = s.faultInfo := rfl
@[simp] theorem driveRnd_mem (s : State) (b : Byte) : (s.driveRnd b).mem = s.mem := rfl
@[simp] theorem driveRnd_keysHeld (s : State) (b : Byte) : (s.driveRnd b).keysHeld = s.keysHeld := rfl
@[simp] theorem driveRnd_rnd (s : State) (b : Byte) : (s.driveRnd b).rnd = some b := rfl
@[simp] theorem driveRnd_forcePresents (s : State) (b : Byte) : (s.driveRnd b).forcePresents = s.forcePresents := rfl
@[simp] theorem driveRnd_loadErrors (s : State) (b : Byte) : (s.driveRnd b).loadErrors = s.loadErrors := rfl
@[simp] theorem driveRnd_inputs (s : State) (b : Byte) : (s.driveRnd b).inputs = s.inputs := rfl
@[simp] theorem driveRnd_draws (s : State) (b : Byte) : (s.driveRnd b).draws = s.draws := rfl
@[simp] theorem driveRnd_started (s : State) (b : Byte) : (s.driveRnd b).started = s.started := rfl
@[simp] theorem driveRnd_reg (s : State) (b : Byte) (r : Reg) : (s.driveRnd b).reg r = s.reg r := rfl
@[simp] theorem driveRnd_readByte (s : State) (b : Byte) (adr : Nat) : (s.driveRnd b).readByte adr = s.readByte adr := rfl
@[simp] theorem driveRnd_pixel (s : State) (b : Byte) (i j : Nat) : (s.driveRnd b).pixel i j = s.pixel i j := rfl
@[simp] theorem driveRnd_base (s : State) (b : Byte) : (s.driveRnd b).base = s.base := rfl

/-! ### reportLoadError -/

@[simp] theorem reportLoadError_params (s : State) : (s.reportLoadError).params = s.params := rfl
@[simp] theorem reportLoadError_v (s : State) : (s.reportLoadError).v = s.v := rfl
@[simp] theorem reportLoadError_I (s : State) : (s.reportLoadError).I = s.I := rfl
@[simp] theorem reportLoadError_pc (s : State) : (s.reportLoadError).pc = s.pc := rfl
@[simp] theorem reportLoadError_stack (s : State) : (s.reportLoadError).stack = s.stack := rfl
@[simp] theorem reportLoadError_sp (s : State) : (s.reportLoadError).sp = s.sp := rfl
@[simp] theorem reportLoadError_dt (s : State) : (s.reportLoadError).dt = s.dt := rfl
@[simp] theorem reportLoadError_st (s : State) : (s.reportLoadError).st = s.st := rfl
@[simp] theorem reportLoadError_fb (s : State) : (s.reportLoadError).fb = s.fb := rfl
@[simp] theorem reportLoadError_dirty (s : State) : (s.reportLoadError).dirty = s.dirty := rfl
@[simp] theorem reportLoadError_runState (s : State) : (s.reportLoadError).runState = s.runState := rfl
@[simp] theorem reportLoadError_waitReg (s : State) : (s.reportLoadError).waitReg = s.waitReg := rfl
@[simp] theorem reportLoadError_faultCause (s : State) : (s.reportLoadError).faultCause = s.faultCause := rfl
@[simp] theorem reportLoadError_faultPc (s : State) : (s.reportLoadError).faultPc = s.faultPc := rfl
@[simp] theorem reportLoadError_faultInfo (s : State) : (s.reportLoadError).faultInfo = s.faultInfo := rfl
@[simp] theorem reportLoadError_mem (s : State) : (s.reportLoadError).mem = s.mem := rfl
@[simp] theorem reportLoadError_keysHeld (s : State) : (s.reportLoadError).keysHeld = s.keysHeld := rfl
@[simp] theorem reportLoadError_rnd (s : State) : (s.reportLoadError).rnd = s.rnd := rfl
@[simp] theorem reportLoadError_forcePresents (s : State) : (s.reportLoadError).forcePresents = s.forcePresents := rfl
@[simp] theorem reportLoadError_loadErrors (s : State) : (s.reportLoadError).loadErrors = s.loadErrors + 1 := rfl
@[simp] theorem reportLoadError_inputs (s : State) : (s.reportLoadError).inputs = s.inputs := rfl
@[simp] theorem reportLoadError_draws (s : State) : (s.reportLoadError).draws = s.draws := rfl
@[simp] theorem reportLoadError_started (s : State) : (s.reportLoadError).started = s.started := rfl
@[simp] theorem reportLoadError_reg (s : State) (r : Reg) : (s.reportLoadError).reg r = s.reg r := rfl
@[simp] theorem reportLoadError_readByte (s : State) (adr : Nat) : (s.reportLoadError).readByte adr = s.readByte adr := rfl
@[simp] theorem reportLoadError_pixel (s : State) (i j : Nat) : (s.reportLoadError).pixel i j = s.pixel i j := rfl
@[simp] theorem reportLoadError_base (s : State) : (s.reportLoadError).base = s.base := rfl

/-! ### presentAck -/

@[simp] theorem presentAck_params (s : State) : (s.presentAck).params = s.params := rfl
@[simp] theorem presentAck_v (s : State) : (s.presentAck).v = s.v := rfl
@[simp] theorem presentAck_I (s : State) : (s.presentAck).I = s.I := rfl
@[simp] theorem presentAck_pc (s : State) : (s.presentAck).pc = s.pc := rfl
@[simp] theorem presentAck_stack (s : State) : (s.presentAck).stack = s.stack := rfl
@[simp] theorem presentAck_sp (s : State) : (s.presentAck).sp = s.sp := rfl
@[simp] theorem presentAck_dt (s : State) : (s.presentAck).dt = s.dt := rfl
@[simp] theorem presentAck_st (s : State) : (s.presentAck).st = s.st := rfl
@[simp] theorem presentAck_fb (s : State) : (s.presentAck).fb = s.fb := rfl
@[simp] theorem presentAck_dirty (s : State) : (s.presentAck).dirty = false := rfl
@[simp] theorem presentAck_runState (s : State) : (s.presentAck).runState = s.runState := rfl
@[simp] theorem presentAck_waitReg (s : State) : (s.presentAck).waitReg = s.waitReg := rfl
@[simp] theorem presentAck_faultCause (s : State) : (s.presentAck).faultCause = s.faultCause := rfl
@[simp] theorem presentAck_faultPc (s : State) : (s.presentAck).faultPc = s.faultPc := rfl
@[simp] theorem presentAck_faultInfo (s : State) : (s.presentAck).faultInfo = s.faultInfo := rfl
@[simp] theorem presentAck_mem (s : State) : (s.presentAck).mem = s.mem := rfl
@[simp] theorem presentAck_keysHeld (s : State) : (s.presentAck).keysHeld = s.keysHeld := rfl
@[simp] theorem presentAck_rnd (s : State) : (s.presentAck).rnd = s.rnd := rfl
@[simp] theorem presentAck_forcePresents (s : State) : (s.presentAck).forcePresents = s.forcePresents := rfl
@[simp] theorem presentAck_loadErrors (s : State) : (s.presentAck).loadErrors = s.loadErrors := rfl
@[simp] theorem presentAck_inputs (s : State) : (s.presentAck).inputs = s.inputs := rfl
@[simp] theorem presentAck_draws (s : State) : (s.presentAck).draws = s.draws := rfl
@[simp] theorem presentAck_started (s : State) : (s.presentAck).started = s.started := rfl
@[simp] theorem presentAck_reg (s : State) (r : Reg) : (s.presentAck).reg r = s.reg r := rfl
@[simp] theorem presentAck_readByte (s : State) (adr : Nat) : (s.presentAck).readByte adr = s.readByte adr := rfl
@[simp] theorem presentAck_pixel (s : State) (i j : Nat) : (s.presentAck).pixel i j = s.pixel i j := rfl
@[simp] theorem presentAck_base (s : State) : (s.presentAck).base = s.base := rfl

end Sys2Proof.Machine.State
end

