-- ==== Sys2Proof/Laws/Memory.lean ====
section
/-! SUPPORT. Memory: read after write, and that every operation keeps the canonical form. -/

namespace Sys2Proof.Machine

variable {base : Nat → Byte} {m m' : List Host.Cell} {a b lo : Nat} {w : Byte}

/-- What the canonical form says of a non-empty list. -/
theorem Memory.wfFrom_cons :
    Memory.wfFrom base lo ((a, w) :: m) = true ↔
      lo ≤ a ∧ a < Config.memSize ∧ w ≠ base a ∧ Memory.wfFrom base (a + 1) m = true := by
  simp [Memory.wfFrom, and_assoc]

theorem Memory.wfFrom_mono (h : Memory.wfFrom base lo m = true) (hle : b ≤ lo) :
    Memory.wfFrom base b m = true := by
  cases m with
  | nil => rfl
  | cons c m => rw [Memory.wfFrom_cons] at h ⊢; exact ⟨hle.trans h.1, h.2⟩

/-- Below its first listed address a canonical memory reads as unlisted. -/
theorem Memory.read_of_lt (h : Memory.wfFrom base lo m = true) (hb : b < lo) :
    Memory.read base m b = base b := by
  induction m generalizing lo with
  | nil => rfl
  | cons c m ih =>
    obtain ⟨a, w⟩ := c
    rw [Memory.wfFrom_cons] at h
    rw [Memory.read, if_neg (by omega)]
    exact ih h.2.2.2 (by omega)

theorem Memory.wfFrom_putFront (h : Memory.wfFrom base (a + 1) m = true) (hlo : lo ≤ a)
    (ha : a < Config.memSize) : Memory.wfFrom base lo (Memory.cons base a w m) = true := by
  unfold Memory.cons
  split
  · exact Memory.wfFrom_mono h (by omega)
  · next hw => exact Memory.wfFrom_cons.mpr ⟨hlo, ha, hw, h⟩

theorem Memory.read_putFront (h : Memory.wfFrom base (a + 1) m = true) :
    Memory.read base (Memory.cons base a w m) b = if b = a then w else Memory.read base m b := by
  unfold Memory.cons
  split
  · next hw =>
    split
    · next hb => rw [Memory.read_of_lt h (by omega), hb, hw]
    · rfl
  · rfl

/-- A write keeps the canonical form. -/
theorem Memory.wfFrom_write (h : Memory.wfFrom base lo m = true) (hlo : lo ≤ a)
    (ha : a < Config.memSize) : Memory.wfFrom base lo (Memory.write base m a w) = true := by
  induction m generalizing lo with
  | nil => exact Memory.wfFrom_putFront rfl hlo ha
  | cons c m ih =>
    obtain ⟨b, u⟩ := c
    have h' := Memory.wfFrom_cons.mp h
    rw [Memory.write]
    split
    · exact Memory.wfFrom_putFront (Memory.wfFrom_cons.mpr ⟨by omega, h'.2⟩) hlo ha
    · split
      · next hab => subst hab; exact Memory.wfFrom_putFront h'.2.2.2 hlo ha
      · exact Memory.wfFrom_cons.mpr ⟨h'.1, h'.2.1, h'.2.2.1, ih h'.2.2.2 (by omega)⟩

/-- A read after a write: the written byte at its address, the old byte everywhere else. -/
theorem Memory.read_write (h : Memory.wfFrom base lo m = true) :
    Memory.read base (Memory.write base m a w) b = if b = a then w else Memory.read base m b := by
  induction m generalizing lo with
  | nil => exact Memory.read_putFront rfl
  | cons c m ih =>
    obtain ⟨c, u⟩ := c
    have h' := Memory.wfFrom_cons.mp h
    rw [Memory.write]
    split
    · exact Memory.read_putFront (Memory.wfFrom_cons.mpr ⟨by omega, h'.2⟩)
    · split
      · next hac =>
        subst hac
        rw [Memory.read_putFront h'.2.2.2]
        split
        · rfl
        · next hb => rw [Memory.read, if_neg hb]
      · rw [Memory.read, Memory.read, ih h'.2.2.2]
        split
        · next hb => rw [if_neg (by omega)]
        · rfl

/-- Storing consecutive bytes keeps the canonical form. -/
theorem Memory.wfFrom_writeAll {ws : List Byte} (h : Memory.wfFrom base 0 m = true)
    (ha : a + ws.length ≤ Config.memSize) : Memory.wfFrom base 0 (Memory.writeAll base m a ws) = true := by
  induction ws generalizing m a with
  | nil => exact h
  | cons w ws ih =>
    simp only [List.length_cons] at ha
    exact ih (Memory.wfFrom_write h (Nat.zero_le a) (by omega)) (by omega)

/-- A read after storing consecutive bytes. -/
theorem Memory.read_writeAll {ws : List Byte} (h : Memory.wfFrom base 0 m = true)
    (ha : a + ws.length ≤ Config.memSize) :
    Memory.read base (Memory.writeAll base m a ws) b =
      if a ≤ b ∧ b < a + ws.length then ws.getD (b - a) 0 else Memory.read base m b := by
  induction ws generalizing m a with
  | nil => rw [if_neg (by simp), Memory.writeAll]
  | cons w ws ih =>
    simp only [List.length_cons] at ha ⊢
    rw [Memory.writeAll, ih (Memory.wfFrom_write h (Nat.zero_le a) (by omega)) (by omega),
      Memory.read_write h]
    by_cases hb : b = a
    · subst hb; simp
    · by_cases hin : a + 1 ≤ b ∧ b < a + 1 + ws.length
      · rw [if_pos hin, if_pos (by omega), show b - a = (b - (a + 1)) + 1 by omega, List.getD_cons_succ]
      · rw [if_neg hin, if_neg hb, if_neg (by omega)]

/-- Canonical memories that read the same are the same list. -/
theorem Memory.eq_of_read_eq (h : Memory.wfFrom base lo m = true) (h' : Memory.wfFrom base lo m' = true)
    (hr : ∀ a, Memory.read base m a = Memory.read base m' a) : m = m' := by
  induction m generalizing m' lo with
  | nil =>
    cases m' with
    | nil => rfl
    | cons c m' =>
      obtain ⟨a, w⟩ := c
      exact absurd (by simpa [Memory.read] using (hr a).symm) (Memory.wfFrom_cons.mp h').2.2.1
  | cons c m ih =>
    obtain ⟨a, w⟩ := c
    have k := Memory.wfFrom_cons.mp h
    cases m' with
    | nil => exact absurd (by simpa [Memory.read] using hr a) k.2.2.1
    | cons c' m' =>
      obtain ⟨a', w'⟩ := c'
      have k' := Memory.wfFrom_cons.mp h'
      have haa : a = a' := by
        rcases Nat.lt_trichotomy a a' with hlt | heq | hlt
        · have := hr a
          rw [Memory.read_of_lt (Memory.wfFrom_cons.mpr ⟨le_refl _, k'.2⟩) hlt] at this
          exact absurd (by simpa [Memory.read] using this) k.2.2.1
        · exact heq
        · have := hr a'
          rw [Memory.read_of_lt (Memory.wfFrom_cons.mpr ⟨le_refl _, k.2⟩) hlt] at this
          exact absurd (by simpa [Memory.read] using this.symm) k'.2.2.1
      subst haa
      have hw : w = w' := by simpa [Memory.read] using hr a
      subst hw
      rw [ih k.2.2.2 k'.2.2.2 fun b => ?_]
      by_cases hb : b = a
      · rw [Memory.read_of_lt k.2.2.2 (by omega), Memory.read_of_lt k'.2.2.2 (by omega)]
      · simpa [Memory.read, hb] using hr b

/-- Storing bytes inside memory keeps the canonical form of a state's memory. -/
theorem State.wf_storeBytes {s : State} {ws : List Byte} (h : Memory.wf s.base s.mem = true)
    (ha : a + ws.length ≤ Config.memSize) :
    Memory.wf (s.storeBytes a ws).base (s.storeBytes a ws).mem = true :=
  Memory.wfFrom_writeAll h ha

/-- A read of one byte after a store. -/
theorem State.readByte_storeBytes {s : State} {ws : List Byte} (h : Memory.wf s.base s.mem = true)
    (ha : a + ws.length ≤ Config.memSize) :
    (s.storeBytes a ws).readByte b =
      if a ≤ b ∧ b < a + ws.length then ws.getD (b - a) 0 else s.readByte b :=
  Memory.read_writeAll h ha

/-- The reset state's memory has the canonical form. -/
theorem State.wf_reset : Memory.wf State.reset.base State.reset.mem = true := rfl

end Sys2Proof.Machine
end

