-- ==== Sys2Proof/Laws/Ops.lean ====
section
/-! SUPPORT. One lemma per shared operation, saying everything it can do. -/

namespace Sys2Proof.Machine

variable {s t : State} {a n : Nat} {e : Trap}

/-! ### Registers -/

@[simp] theorem State.reg_setReg (s : State) (x y : Reg) (b : Byte) :
    (s.setReg x b).reg y = if y = x then b else s.reg y := by
  simp only [State.reg, State.setReg_v, Vector.getElem_set, Fin.ext_iff, eq_comm]

@[simp] theorem State.reg_setFlag (s : State) (y : Reg) (c : Bool) :
    (s.setFlag c).reg y = if y = VF then flagByte c else s.reg y := State.reg_setReg s VF y _

/-- The result register first, VF last (R123). -/
@[simp] theorem State.reg_setRegFlag (s : State) (x y : Reg) (r : Byte) (c : Bool) :
    (s.setRegFlag x r c).reg y = if y = VF then flagByte c else if y = x then r else s.reg y := by
  simp [State.setRegFlag]

/-- Two states with the same register file read the same registers. -/
theorem State.reg_congr (h : t.v = s.v) (x : Reg) : t.reg x = s.reg x := by simp [State.reg, h]

/-- Two register files that read the same are the same. -/
theorem State.v_ext (h : ∀ x, t.reg x = s.reg x) : t.v = s.v := by
  apply Vector.ext
  intro i hi
  exact h ⟨i, hi⟩

theorem loadFrom_getElem (v : Vector Byte 16) (bs : List Byte) (k i : Nat) (hi : i < 16) :
    (loadFrom v k bs)[i] = if k ≤ i ∧ i < k + bs.length then bs.getD (i - k) 0 else v[i] := by
  induction bs generalizing v k with
  | nil => rw [if_neg (by simp), loadFrom]
  | cons b bs ih =>
    rw [loadFrom, ih]
    simp only [List.length_cons]
    by_cases hk : i = k
    · subst hk; simp
    · by_cases hin : k + 1 ≤ i ∧ i < k + 1 + bs.length
      · rw [if_pos hin, if_pos (by omega), show i - k = (i - (k + 1)) + 1 by omega, List.getD_cons_succ]
      · rw [if_neg hin, if_neg (by omega), Vector.getElem_setIfInBounds_ne (by omega) (Ne.symm hk)]

/-- The registers after `V[k] <- bytes[k]` (R298). -/
theorem State.reg_loadRegs (s : State) (bytes : List Byte) (y : Reg) :
    (s.loadRegs bytes).reg y = if y.val < bytes.length then bytes.getD y.val 0 else s.reg y := by
  simp [State.reg, loadFrom_getElem]

@[simp] theorem State.length_regBlock (s : State) (x : Reg) : (s.regBlock x).length = x.val + 1 := by
  have := x.isLt
  simp only [State.regBlock, List.length_take, Vector.length_toList]
  omega

/-- Byte k of the block V0 to Vx is V[k] (R296). -/
theorem State.getD_regBlock (s : State) (x : Reg) {k : Nat} (hk : k < 16) (hx : k ≤ x.val) (d : Byte) :
    (s.regBlock x).getD k d = s.reg ⟨k, hk⟩ := by
  have hl : k < (s.regBlock x).length := by simp; omega
  rw [List.getD_eq_getElem _ _ hl]
  simp [State.regBlock, State.reg]

/-! ### Memory accesses -/

/-- The range check passes exactly when every address of the range exists (R66). -/
theorem rangeTrap_eq_none : rangeTrap a n = none ↔ n = 0 ∨ a + n ≤ Config.memSize := by
  unfold rangeTrap
  split <;> simp <;> omega

/-- What the range check raises (R66). -/
theorem rangeTrap_eq_some (h : rangeTrap a n = some e) :
    e = ⟨.addressFault, BitVec.ofNat 17 (max a Config.memSize)⟩ ∧ 0 < n ∧ Config.memSize < a + n := by
  unfold rangeTrap at h
  split at h
  · next hc => exact ⟨(Option.some.inj h).symm, hc⟩
  · cases h

theorem reservedTrap_eq_none {p : LowWritePolicy} :
    reservedTrap p a n = none ↔ p = .perform ∨ n = 0 ∨ Config.progBase ≤ a := by
  unfold reservedTrap
  split
  · simp
  · split <;> simp <;> omega

@[simp] theorem State.length_readBytes (s : State) (a n : Nat) : (s.readBytes a n).length = n := by
  simp [State.readBytes]

theorem State.getD_readBytes (s : State) {k : Nat} (hk : k < n) (d : Byte) :
    (s.readBytes a n).getD k d = s.readByte (a + k) := by
  rw [List.getD_eq_getElem _ _ (by simpa using hk)]
  simp [State.readBytes]

/-- `MemRead` answers the bytes exactly when the range exists. -/
theorem State.memRead_ok {bytes : List Byte} :
    s.memRead a n = .ok bytes ↔ (n = 0 ∨ a + n ≤ Config.memSize) ∧ bytes = s.readBytes a n := by
  unfold State.memRead
  split
  · next h =>
    have := mt rangeTrap_eq_none.mpr (by rw [h]; simp)
    simp [this]
  · next h => simp [rangeTrap_eq_none.mp h, eq_comm]

/-- `MemRead16` answers the big-endian word exactly when both bytes exist (R69). -/
theorem State.memRead16_ok {w : Word} :
    s.memRead16 a = .ok w ↔
      a + 2 ≤ Config.memSize ∧ w = wordOfBytes (s.readByte a) (s.readByte (a + 1)) := by
  unfold State.memRead16
  split
  · next h =>
    have := mt rangeTrap_eq_none.mpr (by rw [h]; simp)
    simp only [OfNat.ofNat_ne_zero, false_or] at this
    simp [this]
  · next h =>
    have := rangeTrap_eq_none.mp h
    simp only [OfNat.ofNat_ne_zero, false_or] at this
    simp [this, eq_comm]

/-- `MemWrite` performs the store exactly when the range exists and is not reserved (R66, R67). -/
theorem State.memWrite_ok {ws : List Byte} (hws : 0 < ws.length) :
    s.memWrite a ws = .ok t ↔
      a + ws.length ≤ Config.memSize ∧
      (s.params.lowWritePolicy = .perform ∨ Config.progBase ≤ a) ∧ t = s.storeBytes a ws := by
  unfold State.memWrite
  split
  · next h =>
    have := mt rangeTrap_eq_none.mpr (by rw [h]; simp)
    simp only [not_or] at this
    simp [this.2]
  · next h =>
    have h1 := rangeTrap_eq_none.mp h
    split
    · next h' =>
      have := mt reservedTrap_eq_none.mpr (by rw [h']; simp)
      simp only [not_or] at this
      simp [this.1, this.2.2]
    · next h' =>
      have h2 := reservedTrap_eq_none.mp h'
      have e1 : a + ws.length ≤ Config.memSize := by omega
      have e2 : s.params.lowWritePolicy = .perform ∨ Config.progBase ≤ a :=
        h2.imp_right fun h => h.resolve_left (by omega)
      simp only [e1, e2, true_and, Except.ok.injEq]
      exact eq_comm

/-! ### The call stack -/

/-- A push succeeds exactly when fewer than 16 entries are occupied (R26). -/
theorem State.push_of_lt (w x : Word) (h : s.sp.val < 16) :
    s.push w x = .ok { s with stack := s.stack.set s.sp.val x, sp := ⟨s.sp.val + 1, by omega⟩ } := by
  simp [State.push, h]

theorem State.push_of_full (w x : Word) (h : s.sp.val = 16) :
    s.push w x = .error ⟨.stackOverflowFault, w.setWidth 17⟩ := by
  simp [State.push, h]

/-- A pop succeeds exactly when an entry is occupied (R26). -/
theorem State.pop_of_pos (w : Word) (h : 0 < s.sp.val) :
    s.pop w = .ok ({ s with sp := ⟨s.sp.val - 1, by omega⟩ }, s.stack[s.sp.val - 1]) := by
  simp [State.pop, Nat.pos_iff_ne_zero.mp h]

theorem State.pop_of_empty (w : Word) (h : s.sp.val = 0) :
    s.pop w = .error ⟨.stackUnderflowFault, w.setWidth 17⟩ := by
  simp [State.pop, h]

/-! ### The display -/

/-- The cell that a flip changes, and only that one (R244). -/
theorem Display.cell_flip (fb : Display) {x y : Nat} (hx : x < 64) (hy : y < 32) (u v : Nat) :
    Display.cell (Display.flip fb x y) u v =
      if u = x ∧ v = y then !Display.cell fb u v else Display.cell fb u v := by
  unfold Display.cell Display.flip
  by_cases hv : v < 32
  · simp only [hv, hy, dite_true]
    by_cases hvy : v = y
    · subst hvy
      simp only [Vector.getElem_set_self, BitVec.getLsbD_xor, BitVec.getLsbD_twoPow, hx, decide_true,
        Bool.true_and]
      by_cases hu : x = u
      · subst hu; simp
      · simp [hu, Ne.symm hu]
    · simp [Vector.getElem_set_ne _ _ (Ne.symm hvy), hvy]
  · simp [hv, show ¬ (u = x ∧ v = y) by omega]

/-- Off the display every cell reads as clear. -/
theorem Display.cell_off (fb : Display) {x y : Nat} (h : 64 ≤ x ∨ 32 ≤ y) : Display.cell fb x y = false := by
  unfold Display.cell
  split
  · exact BitVec.getLsbD_of_ge _ _ (by omega)
  · rfl

/-- Displays with the same cells are the same display. -/
theorem Display.ext {fb gb : Display}
    (h : ∀ x y, x < 64 → y < 32 → Display.cell fb x y = Display.cell gb x y) : fb = gb := by
  apply Vector.ext
  intro y hy
  apply BitVec.eq_of_getLsbD_eq
  intro x hx
  simpa [Display.cell, hy] using h x y hx hy

/-- What the draw loop does to the display: each listed cell flips, every other keeps its value; the
cells are distinct and on the display (R244). -/
theorem Display.cell_draw {cells : List (Nat × Nat)} (fb : Display) (hit : Bool) (hnd : cells.Nodup)
    (hin : ∀ c ∈ cells, c.1 < 64 ∧ c.2 < 32) (u v : Nat) :
    Display.cell (Display.draw cells fb hit).1 u v =
      if (u, v) ∈ cells then !Display.cell fb u v else Display.cell fb u v := by
  induction cells generalizing fb hit with
  | nil => simp [Display.draw]
  | cons c cs ih =>
    obtain ⟨x, y⟩ := c
    rw [List.nodup_cons] at hnd
    obtain ⟨hx, hy⟩ := hin (x, y) (by simp)
    rw [Display.draw, ih _ _ hnd.2 fun c hc => hin c (List.mem_cons_of_mem _ hc),
      Display.cell_flip fb hx hy]
    by_cases hc : u = x ∧ v = y
    · obtain ⟨rfl, rfl⟩ := hc
      simp [hnd.1]
    · simp [hc, Prod.ext_iff]

/-- The collision that the draw loop reports: some listed cell was set before it (R244). -/
theorem Display.hit_draw {cells : List (Nat × Nat)} (fb : Display) (hit : Bool) (hnd : cells.Nodup)
    (hin : ∀ c ∈ cells, c.1 < 64 ∧ c.2 < 32) :
    (Display.draw cells fb hit).2 = (hit || cells.any fun c => Display.cell fb c.1 c.2) := by
  induction cells generalizing fb hit with
  | nil => simp [Display.draw]
  | cons c cs ih =>
    obtain ⟨x, y⟩ := c
    rw [List.nodup_cons] at hnd
    obtain ⟨hx, hy⟩ := hin (x, y) (by simp)
    rw [Display.draw, ih _ _ hnd.2 fun c hc => hin c (List.mem_cons_of_mem _ hc), List.any_cons,
      Bool.or_assoc]
    congr 2
    rw [Bool.eq_iff_iff, List.any_eq_true, List.any_eq_true]
    refine exists_congr fun c => and_congr_right fun hc => ?_
    rw [Display.cell_flip fb hx hy, if_neg]
    intro h
    have hcx : c = (x, y) := Prod.ext h.1 h.2
    exact hnd.1 (hcx ▸ hc)

end Sys2Proof.Machine
end

