-- ==== Sys2Proof/Laws/Draw.lean ====
section
/-! SUPPORT. The cells that a sprite reaches, for each DRAW_EDGE. -/

namespace Sys2Proof.Machine

variable {bits : List (Nat × Nat)} {x0 y0 : Nat}

theorem mem_rowColumns {b : Byte} {c : Nat} : c ∈ rowColumns b ↔ c < 8 ∧ b.getLsbD (7 - c) = true := by
  simp [rowColumns]

/-- The listed bits are the set bits of the sprite (R243). -/
theorem mem_spriteBits {rows : List Byte} {r0 c r : Nat} :
    (c, r) ∈ spriteBits r0 rows ↔
      c < 8 ∧ r0 ≤ r ∧ r < r0 + rows.length ∧ (rows.getD (r - r0) 0).getLsbD (7 - c) = true := by
  induction rows generalizing r0 with
  | nil => simp [spriteBits]
  | cons b bs ih =>
    simp only [spriteBits, List.mem_append, List.mem_map, Prod.mk.injEq, ih, mem_rowColumns,
      List.length_cons]
    constructor
    · rintro (⟨c', ⟨hc, hb⟩, rfl, rfl⟩ | ⟨hc, hr, hlt, hb⟩)
      · exact ⟨hc, le_refl _, by omega, by simpa using hb⟩
      · refine ⟨hc, by omega, by omega, ?_⟩
        rwa [show r - r0 = (r - (r0 + 1)) + 1 by omega, List.getD_cons_succ]
    · rintro ⟨hc, hr, hlt, hb⟩
      by_cases h : r = r0
      · subst h; exact .inl ⟨c, ⟨hc, by simpa using hb⟩, rfl, rfl⟩
      · refine .inr ⟨hc, by omega, by omega, ?_⟩
        rwa [show r - r0 = (r - (r0 + 1)) + 1 by omega, List.getD_cons_succ] at hb

/-- The bits are listed row by row, and by column inside a row (R240's loops). -/
theorem pairwise_spriteBits (r0 : Nat) (rows : List Byte) :
    (spriteBits r0 rows).Pairwise fun a b => a.2 < b.2 ∨ (a.2 = b.2 ∧ a.1 < b.1) := by
  induction rows generalizing r0 with
  | nil => exact List.Pairwise.nil
  | cons b bs ih =>
    rw [spriteBits, List.pairwise_append]
    refine ⟨?_, ih _, ?_⟩
    · rw [List.pairwise_map]
      exact (List.pairwise_lt_range.filter _).imp fun h => .inr ⟨rfl, h⟩
    · rintro ⟨c, r⟩ h ⟨c', r'⟩ h'
      obtain ⟨_, _, h⟩ := List.mem_map.mp h
      have := (mem_spriteBits.mp h').2.1
      cases h
      exact .inl (by simp only; omega)

theorem nodup_spriteBits (r0 : Nat) (rows : List Byte) : (spriteBits r0 rows).Nodup := by
  induction rows generalizing r0 with
  | nil => exact List.nodup_nil
  | cons b bs ih =>
    rw [spriteBits, List.nodup_append]
    refine ⟨(List.Nodup.filter _ List.nodup_range).map fun c c' h => (Prod.mk.inj h).1, ih _, ?_⟩
    rintro ⟨c, r⟩ h ⟨c', r'⟩ h'
    obtain ⟨_, _, h⟩ := List.mem_map.mp h
    have := (mem_spriteBits.mp h').2.1
    rintro heq
    cases heq
    cases h
    omega

/-- CLIP: the bits that fall on the display, the others dropped (R246). -/
theorem placeBits_clip : placeBits .clip x0 y0 bits =
    .ok ((bits.map fun b => (x0 + b.1, y0 + b.2)).filter fun c => decide (c.1 < 64 ∧ c.2 < 32)) := by
  induction bits with
  | nil => rfl
  | cons b bs ih =>
    obtain ⟨c, r⟩ := b
    by_cases h : x0 + c < 64 ∧ y0 + r < 32
    · simp [placeBits, placeBit, Config.dispW, Config.dispH, h, ih]
    · simp [placeBits, placeBit, Config.dispW, Config.dispH, h, ih]

/-- WRAP: every bit, reduced mod 64 and mod 32 (R248). -/
theorem placeBits_wrap : placeBits .wrap x0 y0 bits =
    .ok (bits.map fun b => ((x0 + b.1) % 64, (y0 + b.2) % 32)) := by
  induction bits with
  | nil => rfl
  | cons b bs ih => simp [placeBits, placeBit, Config.dispW, Config.dispH, ih]

/-- FLAT, no bit outside the array: the cell of each flat index (R247). -/
theorem placeBits_flat (h : ∀ b ∈ bits, (y0 + b.2) * 64 + (x0 + b.1) < 2048) :
    placeBits .flat x0 y0 bits =
      .ok (bits.map fun b =>
        (((y0 + b.2) * 64 + (x0 + b.1)) % 64, ((y0 + b.2) * 64 + (x0 + b.1)) / 64)) := by
  induction bits with
  | nil => rfl
  | cons b bs ih =>
    have hb := h b (by simp)
    simp [placeBits, placeBit, Config.dispW, Config.dispH, ih fun b hb => h b (by simp [hb]), hb]

/-- FLAT, some bit outside the array: the fault names the first one in drawing order (R247). -/
theorem placeBits_flat_outside (h : ∃ b ∈ bits, 2048 ≤ (y0 + b.2) * 64 + (x0 + b.1)) :
    ∃ pre b post, bits = pre ++ b :: post ∧
      (∀ b' ∈ pre, (y0 + b'.2) * 64 + (x0 + b'.1) < 2048) ∧
      2048 ≤ (y0 + b.2) * 64 + (x0 + b.1) ∧
      placeBits .flat x0 y0 bits =
        .error ⟨.drawBoundsFault, BitVec.ofNat 17 ((y0 + b.2) * 64 + (x0 + b.1))⟩ := by
  induction bits with
  | nil => simp at h
  | cons b bs ih =>
    by_cases hb : (y0 + b.2) * 64 + (x0 + b.1) < 2048
    · have h' : ∃ b ∈ bs, 2048 ≤ (y0 + b.2) * 64 + (x0 + b.1) := by
        obtain ⟨b', hm, hb'⟩ := h
        rcases List.mem_cons.mp hm with rfl | hm
        · omega
        · exact ⟨b', hm, hb'⟩
      obtain ⟨pre, c, post, rfl, hpre, hc, hp⟩ := ih h'
      refine ⟨b :: pre, c, post, rfl, ?_, hc, ?_⟩
      · intro b' hm
        rcases List.mem_cons.mp hm with rfl | hm
        · exact hb
        · exact hpre b' hm
      · simp [placeBits, placeBit, Config.dispW, Config.dispH, hb, hp]
    · refine ⟨[], b, bs, rfl, by simp, by omega, ?_⟩
      simp [placeBits, placeBit, Config.dispW, Config.dispH, hb]

/-- Every cell a draw reaches is on the display, none is reached twice, and they are the cells where a
set bit lands (R244, R246 to R248). -/
theorem placeBits_spec {edge : DrawEdge} {cells : List (Nat × Nat)}
    (hb : ∀ b ∈ bits, b.1 < 8 ∧ b.2 < 16) (hnd : bits.Nodup)
    (h : placeBits edge x0 y0 bits = .ok cells) :
    cells.Nodup ∧ (∀ c ∈ cells, c.1 < 64 ∧ c.2 < 32) ∧
      ∀ u v, u < 64 → v < 32 →
        ((u, v) ∈ cells ↔ ∃ b ∈ bits, lands edge (x0 + b.1) (y0 + b.2) u v) := by
  cases edge with
  | clip =>
    rw [placeBits_clip, Except.ok.injEq] at h
    subst h
    refine ⟨(hnd.map ?_).filter _, by simp, ?_⟩
    · rintro ⟨c, r⟩ ⟨c', r'⟩ h
      simp only [Prod.mk.injEq] at h ⊢
      omega
    · intro u v hu hv
      simp only [List.mem_filter, List.mem_map, decide_eq_true_eq, Prod.mk.injEq, lands]
      constructor
      · rintro ⟨⟨b, hm, rfl, rfl⟩, -⟩; exact ⟨b, hm, rfl, rfl⟩
      · rintro ⟨b, hm, rfl, rfl⟩; exact ⟨⟨b, hm, rfl, rfl⟩, hu, hv⟩
  | wrap =>
    rw [placeBits_wrap, Except.ok.injEq] at h
    subst h
    refine ⟨List.Nodup.map_on ?_ hnd, ?_, ?_⟩
    · rintro ⟨c, r⟩ hm ⟨c', r'⟩ hm' h
      have := hb _ hm
      have := hb _ hm'
      simp only [Prod.mk.injEq] at h ⊢
      omega
    · intro c hc
      obtain ⟨b, -, rfl⟩ := List.mem_map.mp hc
      exact ⟨Nat.mod_lt _ (by decide), Nat.mod_lt _ (by decide)⟩
    · intro u v _ _
      simp only [List.mem_map, Prod.mk.injEq, lands]
      exact exists_congr fun b => and_congr_right fun _ => and_congr eq_comm eq_comm
  | flat =>
    by_cases hout : ∃ b ∈ bits, 2048 ≤ (y0 + b.2) * 64 + (x0 + b.1)
    · obtain ⟨_, _, _, _, _, _, hp⟩ := placeBits_flat_outside hout
      rw [hp] at h; cases h
    · push Not at hout
      rw [placeBits_flat hout, Except.ok.injEq] at h
      subst h
      refine ⟨List.Nodup.map_on ?_ hnd, ?_, ?_⟩
      · rintro ⟨c, r⟩ hm ⟨c', r'⟩ hm' h
        have := hb _ hm
        have := hb _ hm'
        simp only [Prod.mk.injEq] at h ⊢
        omega
      · intro c hc
        obtain ⟨b, hm, rfl⟩ := List.mem_map.mp hc
        have := hout b hm
        exact ⟨by simp only; omega, by simp only; omega⟩
      · intro u v hu hv
        simp only [List.mem_map, Prod.mk.injEq, lands]
        refine exists_congr fun b => and_congr_right fun hm => ?_
        have := hout b hm
        omega

/-- The set bits of the n rows at I (R242, R243). -/
theorem State.mem_spriteBits_readBytes (s : State) (n : Nibble) (c r : Nat) :
    (c, r) ∈ spriteBits 0 (s.readBytes s.I.toNat n.toNat) ↔ s.spriteBit n c r = true := by
  rw [mem_spriteBits, State.length_readBytes]
  simp only [State.spriteBit, Nat.zero_le, Nat.zero_add, Nat.sub_zero, true_and, Bool.and_eq_true,
    decide_eq_true_eq, and_assoc]
  refine and_congr_right fun _ => and_congr_right fun hr => ?_
  rw [State.getD_readBytes s hr]

/-- What DRW's checks give when none raises: distinct cells on the display, the ones the sprite reaches
(R240, R242). -/
theorem State.spriteCells_ok {s : State} {x y : Reg} {n : Nibble} {cells : List (Nat × Nat)}
    (h : s.spriteCells x y n = .ok cells) :
    cells.Nodup ∧ (∀ c ∈ cells, c.1 < 64 ∧ c.2 < 32) ∧
      ∀ u v, u < 64 → v < 32 → ((u, v) ∈ cells ↔ s.reaches x y n u v) := by
  unfold State.spriteCells at h
  split at h
  · cases h
  · next rows hr =>
    obtain ⟨-, rfl⟩ := State.memRead_ok.mp hr
    have hn := n.isLt
    have hb : ∀ b ∈ spriteBits 0 (s.readBytes s.I.toNat n.toNat), b.1 < 8 ∧ b.2 < 16 := by
      rintro ⟨c, r⟩ hm
      have := (s.mem_spriteBits_readBytes n c r).mp hm
      simp only [State.spriteBit, Bool.and_eq_true, decide_eq_true_eq] at this
      omega
    obtain ⟨h1, h2, h3⟩ := placeBits_spec hb (nodup_spriteBits _ _) h
    refine ⟨h1, h2, fun u v hu hv => (h3 u v hu hv).trans ?_⟩
    simp only [State.reaches, Prod.exists, s.mem_spriteBits_readBytes]

/-- DRW's checks pass when the sprite is inside memory and, under FLAT, inside the array. -/
theorem State.spriteCells_exists {s : State} {x y : Reg} {n : Nibble}
    (hm : n.toNat = 0 ∨ s.I.toNat + n.toNat ≤ Config.memSize)
    (hf : s.params.drawEdge = .flat → ∀ c r, s.spriteBit n c r = true →
      ((s.reg y).toNat + r) * 64 + ((s.reg x).toNat + c) < 2048) :
    ∃ cells, s.spriteCells x y n = .ok cells := by
  unfold State.spriteCells
  rw [State.memRead_ok.mpr ⟨hm, rfl⟩]
  cases he : s.params.drawEdge with
  | clip => exact ⟨_, placeBits_clip⟩
  | wrap => exact ⟨_, placeBits_wrap⟩
  | flat =>
    refine ⟨_, placeBits_flat ?_⟩
    rintro ⟨c, r⟩ h
    exact hf he c r ((s.mem_spriteBits_readBytes n c r).mp h)

end Sys2Proof.Machine
end

