-- ==== Sys2Proof/Laws/Exec.lean ====
section
/-! SUPPORT. The arms of exec, the forms of a step, and what each meaning that checks first can answer. -/

namespace Sys2Proof.Machine

/-! ### The arms -/

@[simp] theorem exec_cls (s : State) : exec .cls s = execCls s := rfl
@[simp] theorem exec_ret (s : State) : exec .ret s = execRet s := rfl
@[simp] theorem exec_sys (nnn : Addr12) (s : State) : exec (.sys nnn) s = execSys nnn s := rfl
@[simp] theorem exec_jp (nnn : Addr12) (s : State) : exec (.jp nnn) s = execJp nnn s := rfl
@[simp] theorem exec_call (nnn : Addr12) (s : State) : exec (.call nnn) s = execCall nnn s := rfl
@[simp] theorem exec_seImm (x : Reg) (nn : Byte) (s : State) : exec (.seImm x nn) s = execSeImm x nn s := rfl
@[simp] theorem exec_sneImm (x : Reg) (nn : Byte) (s : State) : exec (.sneImm x nn) s = execSneImm x nn s := rfl
@[simp] theorem exec_seReg (x : Reg) (y : Reg) (s : State) : exec (.seReg x y) s = execSeReg x y s := rfl
@[simp] theorem exec_ldImm (x : Reg) (nn : Byte) (s : State) : exec (.ldImm x nn) s = execLdImm x nn s := rfl
@[simp] theorem exec_addImm (x : Reg) (nn : Byte) (s : State) : exec (.addImm x nn) s = execAddImm x nn s := rfl
@[simp] theorem exec_ldReg (x : Reg) (y : Reg) (s : State) : exec (.ldReg x y) s = execLdReg x y s := rfl
@[simp] theorem exec_orReg (x : Reg) (y : Reg) (s : State) : exec (.orReg x y) s = execOrReg x y s := rfl
@[simp] theorem exec_andReg (x : Reg) (y : Reg) (s : State) : exec (.andReg x y) s = execAndReg x y s := rfl
@[simp] theorem exec_xorReg (x : Reg) (y : Reg) (s : State) : exec (.xorReg x y) s = execXorReg x y s := rfl
@[simp] theorem exec_addReg (x : Reg) (y : Reg) (s : State) : exec (.addReg x y) s = execAddReg x y s := rfl
@[simp] theorem exec_sub (x : Reg) (y : Reg) (s : State) : exec (.sub x y) s = execSub x y s := rfl
@[simp] theorem exec_shr (x : Reg) (y : Reg) (s : State) : exec (.shr x y) s = execShr x y s := rfl
@[simp] theorem exec_subn (x : Reg) (y : Reg) (s : State) : exec (.subn x y) s = execSubn x y s := rfl
@[simp] theorem exec_shl (x : Reg) (y : Reg) (s : State) : exec (.shl x y) s = execShl x y s := rfl
@[simp] theorem exec_sneReg (x : Reg) (y : Reg) (s : State) : exec (.sneReg x y) s = execSneReg x y s := rfl
@[simp] theorem exec_ldI (nnn : Addr12) (s : State) : exec (.ldI nnn) s = execLdI nnn s := rfl
@[simp] theorem exec_jpV0 (nnn : Addr12) (s : State) : exec (.jpV0 nnn) s = execJpV0 nnn s := rfl
@[simp] theorem exec_rnd (x : Reg) (nn : Byte) (s : State) : exec (.rnd x nn) s = execRnd x nn s := rfl
@[simp] theorem exec_drw (x : Reg) (y : Reg) (n : Nibble) (s : State) : exec (.drw x y n) s = execDrw x y n s := rfl
@[simp] theorem exec_skp (x : Reg) (s : State) : exec (.skp x) s = execSkp x s := rfl
@[simp] theorem exec_sknp (x : Reg) (s : State) : exec (.sknp x) s = execSknp x s := rfl
@[simp] theorem exec_ldVxDt (x : Reg) (s : State) : exec (.ldVxDt x) s = execLdVxDt x s := rfl
@[simp] theorem exec_ldVxK (x : Reg) (s : State) : exec (.ldVxK x) s = execLdVxK x s := rfl
@[simp] theorem exec_ldDtVx (x : Reg) (s : State) : exec (.ldDtVx x) s = execLdDtVx x s := rfl
@[simp] theorem exec_ldStVx (x : Reg) (s : State) : exec (.ldStVx x) s = execLdStVx x s := rfl
@[simp] theorem exec_addI (x : Reg) (s : State) : exec (.addI x) s = execAddI x s := rfl
@[simp] theorem exec_ldF (x : Reg) (s : State) : exec (.ldF x) s = execLdF x s := rfl
@[simp] theorem exec_ldB (x : Reg) (s : State) : exec (.ldB x) s = execLdB x s := rfl
@[simp] theorem exec_ldMemVx (x : Reg) (s : State) : exec (.ldMemVx x) s = execLdMemVx x s := rfl
@[simp] theorem exec_ldVxMem (x : Reg) (s : State) : exec (.ldVxMem x) s = execLdVxMem x s := rfl

/-! ### Steps -/

variable {s : State}

/-- With no event listed the event is a step. -/
theorem step_of_nil (h : s.inputs = []) : step s = s.stepEvent := by simp [step, State.deliver, h]

/-- The first listed event is handled, and taken off the list. -/
theorem step_of_cons {e : Event} {es : List Event} (h : s.inputs = e :: es) :
    step s = (s.setInputs es).handle e := by simp [step, State.deliver, h]

/-- A step event in RUN is a cycle; it records that a step has been executed. -/
theorem stepEvent_of_run (h : s.runState = .run) : s.stepEvent = s.setStarted.runCycle := by
  simp [State.stepEvent, h]

/-- A step event in AWAIT_KEY or FAULTED does nothing (R36). -/
theorem stepEvent_of_not_run (h : s.runState ≠ .run) : s.stepEvent = .next s := by
  unfold State.stepEvent
  cases hr : s.runState <;> simp_all

/-- The three ways a cycle goes: the fetch faults, the word is ILLEGAL, or its instruction executes
(R120, R121, R122). -/
theorem runCycle_cases (s : State) :
    (Config.memSize < s.pc.toNat + 2 ∧
      s.runCycle = .next (s.raise ⟨.addressFault, BitVec.ofNat 17 (max s.pc.toNat Config.memSize)⟩)) ∨
    (∃ w, s.memRead16 s.pc.toNat = .ok w ∧ decode w = none ∧ s.runCycle = .next (s.raise (illegalTrap w))) ∨
    (∃ w i, s.memRead16 s.pc.toNat = .ok w ∧ decode w = some i ∧ s.runCycle = exec i s) := by
  unfold State.runCycle
  cases hm : s.memRead16 s.pc.toNat with
  | error e =>
    left
    unfold State.memRead16 at hm
    split at hm
    · next t ht =>
      obtain ⟨he, -, hlt⟩ := rangeTrap_eq_some ht
      cases hm
      exact ⟨hlt, by rw [he]⟩
    · cases hm
  | ok w =>
    right
    cases hd : decode w with
    | none => exact .inl ⟨w, rfl, hd, by simp [hd]⟩
    | some i => exact .inr ⟨w, i, rfl, hd, by simp [hd]⟩

/-- What the load event answers: a refusal after the first step; before it the ROM copied to 0x200, or nothing
changed but the report of a host load error (R363, R364). -/
theorem loadEvent_cases (s : State) (rom : List Byte) :
    (s.started = true ∧ s.loadEvent rom = .refused .lateLoad) ∨
    (s.started = false ∧ rom.length ≤ 3584 ∧ s.loadEvent rom = .next (s.storeBytes Config.progBase rom)) ∨
    (s.started = false ∧ 3584 < rom.length ∧ s.loadEvent rom = .next s.reportLoadError) := by
  unfold State.loadEvent State.load
  cases hs : s.started
  · by_cases h : 3584 < rom.length
    · exact .inr (.inr ⟨rfl, h, congrArg Host.Outcome.next (if_pos h)⟩)
    · exact .inr (.inl ⟨rfl, by omega, congrArg Host.Outcome.next (if_neg h)⟩)
  · exact .inl ⟨rfl, rfl⟩

/-! ### The checks -/

/-- A store answers the stored state, or a trap with one of its two causes. -/
theorem memWrite_cases (s : State) (a : Nat) (ws : List Byte) :
    ((a + ws.length ≤ Config.memSize ∨ ws.length = 0) ∧
        (s.params.lowWritePolicy = .perform ∨ ws.length = 0 ∨ Config.progBase ≤ a) ∧
        s.memWrite a ws = .ok (s.storeBytes a ws)) ∨
      ∃ e : Trap, (e.cause = .addressFault ∨ e.cause = .reservedWriteFault) ∧ s.memWrite a ws = .error e := by
  unfold State.memWrite
  split
  · next t ht => exact .inr ⟨t, .inl (by rw [(rangeTrap_eq_some ht).1]), rfl⟩
  · next ht =>
    split
    · next t ht' =>
      refine .inr ⟨t, .inr ?_, rfl⟩
      unfold reservedTrap at ht'
      split at ht'
      · cases ht'
      · split at ht'
        · cases ht'; rfl
        · cases ht'
    · next ht' => exact .inl ⟨(rangeTrap_eq_none.mp ht).symm, reservedTrap_eq_none.mp ht', rfl⟩

/-- A read answers the bytes, or AddressFault. -/
theorem memRead_cases (s : State) (a n : Nat) :
    ((n = 0 ∨ a + n ≤ Config.memSize) ∧ s.memRead a n = .ok (s.readBytes a n)) ∨
      ∃ e : Trap, e.cause = .addressFault ∧ s.memRead a n = .error e := by
  unfold State.memRead
  split
  · next t h => exact .inr ⟨t, by rw [(rangeTrap_eq_some h).1], rfl⟩
  · next h => exact .inl ⟨rangeTrap_eq_none.mp h, rfl⟩

/-- DRW's checks answer the cells, or a trap with one of its two causes. -/
theorem spriteCells_cases (s : State) (x y : Reg) (n : Nibble) :
    (∃ cells, s.spriteCells x y n = .ok cells) ∨
      ∃ e : Trap, (e.cause = .addressFault ∨ e.cause = .drawBoundsFault) ∧ s.spriteCells x y n = .error e := by
  unfold State.spriteCells
  rcases memRead_cases s s.I.toNat n.toNat with ⟨-, h⟩ | ⟨e, he, h⟩
  · rw [h]
    cases hp : placeBits s.params.drawEdge (s.reg x).toNat (s.reg y).toNat
        (spriteBits 0 (s.readBytes s.I.toNat n.toNat)) with
    | ok cells => exact .inl ⟨cells, hp⟩
    | error e =>
      refine .inr ⟨e, .inr ?_, hp⟩
      generalize spriteBits 0 (s.readBytes s.I.toNat n.toNat) = bits at hp
      induction bits with
      | nil => cases hp
      | cons b bs ih =>
        rw [placeBits] at hp
        split at hp
        · cases hp; rfl
        · exact ih hp
        · split at hp
          · cases hp
          · next t ht => cases hp; exact ih ht
  · exact .inr ⟨e, .inl he, by rw [h]⟩

/-! ### The meanings that check before they write: completion or fault entry -/

theorem execRet_cases (s : State) :
    (∃ (k : Nat) (h : k < 16), s.sp.val = k + 1 ∧
      execRet s = .next { s with sp := ⟨k, by omega⟩, pc := s.stack[k] + 2 }) ∨
    (s.sp.val = 0 ∧ execRet s = .next (s.raise ⟨.stackUnderflowFault, (encode .ret).setWidth 17⟩)) := by
  by_cases h : s.sp.val = 0
  · exact .inr ⟨h, by simp [execRet, State.pop_of_empty _ h]⟩
  · have hp := s.sp.isLt
    refine .inl ⟨s.sp.val - 1, by omega, by omega, ?_⟩
    simp [execRet, State.pop_of_pos _ (Nat.pos_of_ne_zero h), State.setPc]

theorem execCall_cases (nnn : Addr12) (s : State) :
    (∃ h : s.sp.val < 16, execCall nnn s = .next { s with
      stack := s.stack.set s.sp.val s.pc, sp := ⟨s.sp.val + 1, by omega⟩, pc := zext16 nnn }) ∨
    (s.sp.val = 16 ∧
      execCall nnn s = .next (s.raise ⟨.stackOverflowFault, (encode (.call nnn)).setWidth 17⟩)) := by
  by_cases h : s.sp.val < 16
  · exact .inl ⟨h, by simp [execCall, State.push_of_lt _ _ h, State.setPc]⟩
  · have hp : s.sp.val = 16 := by have := s.sp.isLt; omega
    exact .inr ⟨hp, by simp [execCall, State.push_of_full _ _ hp]⟩

theorem execDrw_cases (x y : Reg) (n : Nibble) (s : State) :
    (∃ cells, s.spriteCells x y n = .ok cells ∧ execDrw x y n s = .next (s.drawCells cells).advance) ∨
    ∃ e : Trap, (e.cause = .addressFault ∨ e.cause = .drawBoundsFault) ∧
      execDrw x y n s = .next (s.raise e) := by
  rcases spriteCells_cases s x y n with ⟨cells, h⟩ | ⟨e, he, h⟩
  · exact .inl ⟨cells, h, by simp [execDrw, h]⟩
  · exact .inr ⟨e, he, by simp [execDrw, h]⟩

theorem keyTrap_eq (s : State) (x : Reg) :
    s.keyTrap x = if 16 ≤ (s.reg x).toNat then some ⟨.keyIndexFault, (s.reg x).setWidth 17⟩ else none := rfl

theorem execSkp_cases (x : Reg) (s : State) :
    ((s.reg x).toNat < 16 ∧ execSkp x s = .next (s.sampledKeys.skipIf (s.keyHeld (s.reg x).toNat))) ∨
    (16 ≤ (s.reg x).toNat ∧ execSkp x s = .next (s.raise ⟨.keyIndexFault, (s.reg x).setWidth 17⟩)) := by
  by_cases h : 16 ≤ (s.reg x).toNat
  · exact .inr ⟨h, by simp only [execSkp, keyTrap_eq, if_pos h]⟩
  · exact .inl ⟨by omega, by simp only [execSkp, keyTrap_eq, if_neg h]⟩

theorem execSknp_cases (x : Reg) (s : State) :
    ((s.reg x).toNat < 16 ∧ execSknp x s = .next (s.sampledKeys.skipIf (!s.keyHeld (s.reg x).toNat))) ∨
    (16 ≤ (s.reg x).toNat ∧ execSknp x s = .next (s.raise ⟨.keyIndexFault, (s.reg x).setWidth 17⟩)) := by
  by_cases h : 16 ≤ (s.reg x).toNat
  · exact .inr ⟨h, by simp only [execSknp, keyTrap_eq, if_pos h]⟩
  · exact .inl ⟨by omega, by simp only [execSknp, keyTrap_eq, if_neg h]⟩

theorem execLdB_cases (x : Reg) (s : State) :
    (s.I.toNat + 3 ≤ Config.memSize ∧ (s.params.lowWritePolicy = .perform ∨ Config.progBase ≤ s.I.toNat) ∧
      execLdB x s = .next (s.storeBytes s.I.toNat (decimalDigits (s.reg x))).advance) ∨
    ∃ e : Trap, (e.cause = .addressFault ∨ e.cause = .reservedWriteFault) ∧
      execLdB x s = .next (s.raise e) := by
  have hl : (decimalDigits (s.reg x)).length = 3 := rfl
  rcases memWrite_cases s s.I.toNat (decimalDigits (s.reg x)) with ⟨h1, h2, h⟩ | ⟨e, he, h⟩
  · rw [hl] at h1 h2
    exact .inl ⟨h1.resolve_right (by omega), h2.imp_right fun h => h.resolve_left (by omega),
      by simp only [execLdB, h]⟩
  · exact .inr ⟨e, he, by simp only [execLdB, h]⟩

theorem execLdMemVx_cases (x : Reg) (s : State) :
    (s.I.toNat + (x.val + 1) ≤ Config.memSize ∧
      (s.params.lowWritePolicy = .perform ∨ Config.progBase ≤ s.I.toNat) ∧
      execLdMemVx x s = .next (s.storeBytes s.I.toNat (s.regBlock x)).advance) ∨
    ∃ e : Trap, (e.cause = .addressFault ∨ e.cause = .reservedWriteFault) ∧
      execLdMemVx x s = .next (s.raise e) := by
  rcases memWrite_cases s s.I.toNat (s.regBlock x) with ⟨h1, h2, h⟩ | ⟨e, he, h⟩
  · rw [State.length_regBlock] at h1 h2
    exact .inl ⟨h1.resolve_right (by omega), h2.imp_right fun h => h.resolve_left (by omega),
      by simp only [execLdMemVx, h]⟩
  · exact .inr ⟨e, he, by simp only [execLdMemVx, h]⟩

theorem execLdVxMem_cases (x : Reg) (s : State) :
    (s.I.toNat + (x.val + 1) ≤ Config.memSize ∧
      execLdVxMem x s = .next (s.loadRegs (s.readBytes s.I.toNat (x.val + 1))).advance) ∨
    ∃ e : Trap, e.cause = .addressFault ∧ execLdVxMem x s = .next (s.raise e) := by
  rcases memRead_cases s s.I.toNat (x.val + 1) with ⟨h1, h⟩ | ⟨e, he, h⟩
  · exact .inl ⟨h1.resolve_left (by omega), by simp only [execLdVxMem, h]⟩
  · exact .inr ⟨e, he, by simp only [execLdVxMem, h]⟩

/-- VF after FX1E: written with the flag, or left as it was. -/
theorem setIndexFlag_cases (s : State) (sum : Nat) :
    (∃ c, s.setIndexFlag sum = s.setFlag c) ∨ s.setIndexFlag sum = s := by
  unfold State.setIndexFlag
  split
  · exact .inl ⟨_, rfl⟩
  · split
    · exact .inl ⟨_, rfl⟩
    · exact .inr rfl

end Sys2Proof.Machine
end

