-- ==== Sys2Proof/Laws/PerInstr.lean ====
section
/-! SUPPORT. Per instruction: the encoding carries the fixed bits of its row of the opcode table. -/

namespace Sys2Proof.Laws.TableRow

/-- The mask of an instruction's row of the opcode map and the value of the bits it selects, written from the
table (R102). -/
def row : Instr → Word × Word
  | .cls => (0xFFFF#16, 0x00E0#16)
  | .ret => (0xFFFF#16, 0x00EE#16)
  | .sys _ => (0xF000#16, 0x0000#16)
  | .jp _ => (0xF000#16, 0x1000#16)
  | .call _ => (0xF000#16, 0x2000#16)
  | .seImm _ _ => (0xF000#16, 0x3000#16)
  | .sneImm _ _ => (0xF000#16, 0x4000#16)
  | .seReg _ _ => (0xF00F#16, 0x5000#16)
  | .ldImm _ _ => (0xF000#16, 0x6000#16)
  | .addImm _ _ => (0xF000#16, 0x7000#16)
  | .ldReg _ _ => (0xF00F#16, 0x8000#16)
  | .orReg _ _ => (0xF00F#16, 0x8001#16)
  | .andReg _ _ => (0xF00F#16, 0x8002#16)
  | .xorReg _ _ => (0xF00F#16, 0x8003#16)
  | .addReg _ _ => (0xF00F#16, 0x8004#16)
  | .sub _ _ => (0xF00F#16, 0x8005#16)
  | .shr _ _ => (0xF00F#16, 0x8006#16)
  | .subn _ _ => (0xF00F#16, 0x8007#16)
  | .shl _ _ => (0xF00F#16, 0x800E#16)
  | .sneReg _ _ => (0xF00F#16, 0x9000#16)
  | .ldI _ => (0xF000#16, 0xA000#16)
  | .jpV0 _ => (0xF000#16, 0xB000#16)
  | .rnd _ _ => (0xF000#16, 0xC000#16)
  | .drw _ _ _ => (0xF000#16, 0xD000#16)
  | .skp _ => (0xF0FF#16, 0xE09E#16)
  | .sknp _ => (0xF0FF#16, 0xE0A1#16)
  | .ldVxDt _ => (0xF0FF#16, 0xF007#16)
  | .ldVxK _ => (0xF0FF#16, 0xF00A#16)
  | .ldDtVx _ => (0xF0FF#16, 0xF015#16)
  | .ldStVx _ => (0xF0FF#16, 0xF018#16)
  | .addI _ => (0xF0FF#16, 0xF01E#16)
  | .ldF _ => (0xF0FF#16, 0xF029#16)
  | .ldB _ => (0xF0FF#16, 0xF033#16)
  | .ldMemVx _ => (0xF0FF#16, 0xF055#16)
  | .ldVxMem _ => (0xF0FF#16, 0xF065#16)

/-- The word of `i` has the fixed bits of its row. -/
def Statement (i : Instr) : Prop := encode i &&& (row i).1 = (row i).2

/-! ### The fixed bits of each format -/

variable (t n : Nibble) (x y : Reg) (nn : Byte) (nnn : Addr12)

/-- Two halves joined, each under its own mask. -/
theorem glue {a b : Nat} {u m r : BitVec a} {v k q : BitVec b} (h : u &&& m = r) (h' : v &&& k = q) :
    (u ++ v) &&& (m ++ k) = r ++ q := by rw [BitVec.and_append, h, h']

/-- Format ADDR under its mask. -/
theorem addr : wordAddr t nnn &&& (0xF#4 ++ 0#12) = t ++ 0#12 :=
  glue BitVec.and_allOnes BitVec.and_zero

/-- Format REG_IMM under its mask. -/
theorem regImm : wordRegImm t x nn &&& (0xF#4 ++ 0#4 ++ 0#8) = t ++ 0#4 ++ 0#8 :=
  glue (glue BitVec.and_allOnes BitVec.and_zero) BitVec.and_zero

/-- Format REG_SUB under its mask. -/
theorem regSub : wordRegImm t x nn &&& (0xF#4 ++ 0#4 ++ 0xFF#8) = t ++ 0#4 ++ nn :=
  glue (glue BitVec.and_allOnes BitVec.and_zero) BitVec.and_allOnes

/-- Format REG_REG under its mask. -/
theorem regReg : wordRegReg t x y n &&& (0xF#4 ++ 0#4 ++ 0#4 ++ 0xF#4) = t ++ 0#4 ++ 0#4 ++ n :=
  glue (glue (glue BitVec.and_allOnes BitVec.and_zero) BitVec.and_zero) BitVec.and_allOnes

/-- Format DRAW under its mask. -/
theorem draw : wordRegReg t x y n &&& (0xF#4 ++ 0#4 ++ 0#4 ++ 0#4) = t ++ 0#4 ++ 0#4 ++ 0#4 :=
  glue (glue (glue BitVec.and_allOnes BitVec.and_zero) BitVec.and_zero) BitVec.and_zero

/-! ### One lemma per constructor -/

theorem cls : Statement .cls := rfl

theorem ret : Statement .ret := rfl

theorem sys (nnn : Addr12) : Statement (.sys nnn) := addr 0x0#4 nnn

theorem jp (nnn : Addr12) : Statement (.jp nnn) := addr 0x1#4 nnn

theorem call (nnn : Addr12) : Statement (.call nnn) := addr 0x2#4 nnn

theorem seImm (x : Reg) (nn : Byte) : Statement (.seImm x nn) := regImm 0x3#4 x nn

theorem sneImm (x : Reg) (nn : Byte) : Statement (.sneImm x nn) := regImm 0x4#4 x nn

theorem seReg (x y : Reg) : Statement (.seReg x y) := regReg 0x5#4 0x0#4 x y

theorem ldImm (x : Reg) (nn : Byte) : Statement (.ldImm x nn) := regImm 0x6#4 x nn

theorem addImm (x : Reg) (nn : Byte) : Statement (.addImm x nn) := regImm 0x7#4 x nn

theorem ldReg (x y : Reg) : Statement (.ldReg x y) := regReg 0x8#4 0x0#4 x y

theorem orReg (x y : Reg) : Statement (.orReg x y) := regReg 0x8#4 0x1#4 x y

theorem andReg (x y : Reg) : Statement (.andReg x y) := regReg 0x8#4 0x2#4 x y

theorem xorReg (x y : Reg) : Statement (.xorReg x y) := regReg 0x8#4 0x3#4 x y

theorem addReg (x y : Reg) : Statement (.addReg x y) := regReg 0x8#4 0x4#4 x y

theorem sub (x y : Reg) : Statement (.sub x y) := regReg 0x8#4 0x5#4 x y

theorem shr (x y : Reg) : Statement (.shr x y) := regReg 0x8#4 0x6#4 x y

theorem subn (x y : Reg) : Statement (.subn x y) := regReg 0x8#4 0x7#4 x y

theorem shl (x y : Reg) : Statement (.shl x y) := regReg 0x8#4 0xE#4 x y

theorem sneReg (x y : Reg) : Statement (.sneReg x y) := regReg 0x9#4 0x0#4 x y

theorem ldI (nnn : Addr12) : Statement (.ldI nnn) := addr 0xA#4 nnn

theorem jpV0 (nnn : Addr12) : Statement (.jpV0 nnn) := addr 0xB#4 nnn

theorem rnd (x : Reg) (nn : Byte) : Statement (.rnd x nn) := regImm 0xC#4 x nn

theorem drw (x y : Reg) (n : Nibble) : Statement (.drw x y n) := draw 0xD#4 n x y

theorem skp (x : Reg) : Statement (.skp x) := regSub 0xE#4 x 0x9E#8

theorem sknp (x : Reg) : Statement (.sknp x) := regSub 0xE#4 x 0xA1#8

theorem ldVxDt (x : Reg) : Statement (.ldVxDt x) := regSub 0xF#4 x 0x07#8

theorem ldVxK (x : Reg) : Statement (.ldVxK x) := regSub 0xF#4 x 0x0A#8

theorem ldDtVx (x : Reg) : Statement (.ldDtVx x) := regSub 0xF#4 x 0x15#8

theorem ldStVx (x : Reg) : Statement (.ldStVx x) := regSub 0xF#4 x 0x18#8

theorem addI (x : Reg) : Statement (.addI x) := regSub 0xF#4 x 0x1E#8

theorem ldF (x : Reg) : Statement (.ldF x) := regSub 0xF#4 x 0x29#8

theorem ldB (x : Reg) : Statement (.ldB x) := regSub 0xF#4 x 0x33#8

theorem ldMemVx (x : Reg) : Statement (.ldMemVx x) := regSub 0xF#4 x 0x55#8

theorem ldVxMem (x : Reg) : Statement (.ldVxMem x) := regSub 0xF#4 x 0x65#8

end Sys2Proof.Laws.TableRow
end

