-- ==== Sys2Proof/Tests/Slice0.lean ====
section
/-! SUPPORT. Tests on fixed values, their expected results from the spec's encodings and from the vectors of
95_test_vectors.md that each names; and a witness for the hypotheses of every obligation that has some. -/

namespace Sys2Proof.Tests

open Sys2Proof.Machine

/-! ### Well-formedness -/

/-- The words 00E0 and 00EE are CLS and RET, so SYS does not stand for them (R97). -/
theorem test_wf_refuses_sys_0E0 : (Instr.sys 0x0E0#12).wf = false := by decide

theorem test_wf_refuses_sys_0EE : (Instr.sys 0x0EE#12).wf = false := by decide

theorem test_wf_accepts_sys_0E1 : (Instr.sys 0x0E1#12).wf = true := by decide

theorem test_wf_accepts_call_0E0 : (Instr.call 0x0E0#12).wf = true := by decide

/-! ### Decoding: words written out bit by bit from R93 and R102 -/

theorem test_decode_family_0 :
    decode 0b0000_0000_1110_0000#16 = some .cls ∧
    decode 0b0000_0000_1110_1110#16 = some .ret ∧
    decode 0b0000_0001_0010_0011#16 = some (.sys 0x123#12) := by decide

theorem test_decode_families_1_2 :
    decode 0b0001_1010_1011_1100#16 = some (.jp 0xABC#12) ∧
    decode 0b0010_0011_0000_0001#16 = some (.call 0x301#12) := by decide

theorem test_decode_families_3_4 :
    decode 0b0011_0011_0100_0010#16 = some (.seImm 3 0x42#8) ∧
    decode 0b0100_1100_0000_0001#16 = some (.sneImm 12 0x01#8) := by decide

theorem test_decode_families_5_9 :
    decode 0b0101_0001_0010_0000#16 = some (.seReg 1 2) ∧
    decode 0b1001_1110_0111_0000#16 = some (.sneReg 14 7) := by decide

theorem test_decode_families_6_7 :
    decode 0b0110_1010_0011_1100#16 = some (.ldImm 10 0x3C#8) ∧
    decode 0b0111_0000_1000_0011#16 = some (.addImm 0 0x83#8) := by decide

theorem test_decode_alu_moves_and_logic :
    decode 0b1000_0100_0101_0000#16 = some (.ldReg 4 5) ∧
    decode 0b1000_0100_0101_0001#16 = some (.orReg 4 5) ∧
    decode 0b1000_0100_0101_0010#16 = some (.andReg 4 5) ∧
    decode 0b1000_0100_0101_0011#16 = some (.xorReg 4 5) := by decide

theorem test_decode_alu_arithmetic :
    decode 0b1000_0100_0101_0100#16 = some (.addReg 4 5) ∧
    decode 0b1000_0100_0101_0101#16 = some (.sub 4 5) ∧
    decode 0b1000_0100_0101_0110#16 = some (.shr 4 5) ∧
    decode 0b1000_0100_0101_0111#16 = some (.subn 4 5) ∧
    decode 0b1000_0100_0101_1110#16 = some (.shl 4 5) := by decide

theorem test_decode_families_A_B_C :
    decode 0b1010_1111_0000_0001#16 = some (.ldI 0xF01#12) ∧
    decode 0b1011_0011_0000_0000#16 = some (.jpV0 0x300#12) ∧
    decode 0b1100_0010_1111_0001#16 = some (.rnd 2 0xF1#8) := by decide

theorem test_decode_family_D :
    decode 0b1101_0001_0010_0011#16 = some (.drw 1 2 3#4) := by decide

theorem test_decode_family_E :
    decode 0b1110_0101_1001_1110#16 = some (.skp 5) ∧
    decode 0b1110_0101_1010_0001#16 = some (.sknp 5) := by decide

theorem test_decode_family_F_timers_and_key :
    decode 0b1111_0010_0000_0111#16 = some (.ldVxDt 2) ∧
    decode 0b1111_0010_0000_1010#16 = some (.ldVxK 2) ∧
    decode 0b1111_0010_0001_0101#16 = some (.ldDtVx 2) ∧
    decode 0b1111_0010_0001_1000#16 = some (.ldStVx 2) := by decide

theorem test_decode_family_F_index_and_memory :
    decode 0b1111_0011_0001_1110#16 = some (.addI 3) ∧
    decode 0b1111_0011_0010_1001#16 = some (.ldF 3) ∧
    decode 0b1111_0011_0011_0011#16 = some (.ldB 3) ∧
    decode 0b1111_0011_0101_0101#16 = some (.ldMemVx 3) ∧
    decode 0b1111_0011_0110_0101#16 = some (.ldVxMem 3) := by decide

/-- V-S-10, V-S-11, V-8-25, V-8-26, V-E-6, V-F-23. -/
theorem test_decode_illegal :
    [0x5121#16, 0x912F#16, 0x8018#16, 0x801F#16, 0xE0FF#16, 0xF0FF#16].map decode =
      List.replicate 6 none := by decide

/-- The encoder writes X above Y above N, from R93. -/
theorem test_encode :
    encode (.drw 1 2 3#4) = 0b1101_0001_0010_0011#16 ∧ encode (.shl 4 5) = 0b1000_0100_0101_1110#16 ∧
    encode (.ldVxMem 3) = 0b1111_0011_0110_0101#16 ∧ encode (.jp 0xABC#12) = 0b0001_1010_1011_1100#16 := by decide

/-- E1. -/
theorem test_field : field 0xD123#16 0 1 = 0xD ∧ field 0xD123#16 1 3 = 0x123 := by decide

/-- The byte at the lower address is the high one (R69); a single byte is no instruction (R90). -/
theorem test_decode_bytes :
    decodeBytes [0xD1, 0x23, 0x99] = .ok (.drw 1 2 3#4, [0x99]) ∧
    decodeBytes [0x80, 0x18] = .error (.illegal 0x8018#16) ∧ decodeBytes [0xD1] = .error .truncated := ⟨rfl, rfl, rfl⟩

theorem test_decode_table_word :
    decodeTableWord 16 0x8124 = some (.addReg 1 2) ∧ decodeTableWord 16 0x8018 = none := by decide

/-! ### Helpers: small start states -/

/-- What a step shows of its next state; nothing where it stops. -/
def seen {α : Type} (o : Host.Outcome State Fault Refusal) (f : State → α) : Option α :=
  match o with
  | .next t => some (f t)
  | .fault _ => none
  | .refused _ => none

/-- The reset state. -/
def start : State := State.reset

/-- The reset state with some registers written. -/
def regs (l : List (Reg × Byte)) : State := l.foldl (fun s p => s.setReg p.1 p.2) start

/-- The reset state with `n` occupied stack entries, the lowest of them `a`. -/
def withStack (n : Fin 17) (a : Word) : State := { start with sp := n, stack := start.stack.set 0 a }

/-- SHIFT_SOURCE = VY. -/
def shiftVy (s : State) : State := { s with params := { s.params with shiftSource := .vy } }

/-- LOW_WRITE_POLICY = PERFORM. -/
def perform (s : State) : State := { s with params := { s.params with lowWritePolicy := .perform } }

/-- Another DRAW_EDGE. -/
def edge (e : DrawEdge) (s : State) : State := { s with params := { s.params with drawEdge := e } }

/-- The run state `r`. -/
def inRunState (r : RunState) (s : State) : State := { s with runState := r }

/-! ### One step of every instruction -/

/-- V-0-1. -/
theorem test_cls_clears : seen (step ((start.setFb (Display.flip (Display.flip start.fb 0 0) 63 31)).withFetchWord 16 0x00E0))
    (fun t => (t.fb[0], t.fb[31], t.dirty, t.pc)) =
    some (0, 0, true, 0x202) := by decide

/-- V-0-2. -/
theorem test_ret_pops : seen (step (((withStack 1 0x204).setPc 0x300).withFetchWord 16 0x00EE))
    (fun t => (t.sp.val, t.pc, t.stack[0])) =
    some (0, 0x206, 0x204) := by decide

/-- V-0-3. -/
theorem test_ret_on_empty_stack : seen (step (start.withFetchWord 16 0x00EE))
    (fun t => (t.faultCause, t.faultPc, t.faultInfo, t.runState)) =
    some (.stackUnderflowFault, 0x200, 0x00EE, .faulted) := by decide

/-- V-0-5. -/
theorem test_sys_only_advances : seen (step (start.withFetchWord 16 0x0FFF))
    (fun t => (t.pc, t.I, t.runState)) =
    some (0x202, 0, .run) := by decide

/-- V-0-6. -/
theorem test_sys_next_to_cls : seen (step (start.withFetchWord 16 0x00E1))
    (fun t => (t.pc, t.dirty)) =
    some (0x202, false) := by decide

/-- V-1-1. -/
theorem test_jp : seen (step (start.withFetchWord 16 0x1ABC))
    (fun t => t.pc) =
    some 0xABC := by decide

/-- V-1-2. -/
theorem test_jp_to_self : seen (step (start.withFetchWord 16 0x1200))
    (fun t => t.pc) =
    some 0x200 := by decide

/-- V-2-4. -/
theorem test_call_at_last_free_entry : seen (step ((withStack 15 0).withFetchWord 16 0x2300))
    (fun t => (t.stack[15], t.sp.val, t.pc)) =
    some (0x200, 16, 0x300) := by decide

/-- V-2-3. -/
theorem test_call_on_full_stack : seen (step ((withStack 16 0).withFetchWord 16 0x2300))
    (fun t => (t.faultCause, t.faultPc, t.faultInfo, t.runState)) =
    some (.stackOverflowFault, 0x200, 0x2300, .faulted) := by decide

/-- V-S-1. -/
theorem test_seImm_equal : seen (step ((regs [(0, 0x12)]).withFetchWord 16 0x3012))
    (fun t => t.pc) =
    some 0x204 := by decide

/-- V-S-2. -/
theorem test_seImm_differs : seen (step ((regs [(0, 0x13)]).withFetchWord 16 0x3012))
    (fun t => t.pc) =
    some 0x202 := by decide

/-- V-S-3. -/
theorem test_sneImm_equal : seen (step ((regs [(0, 0x12)]).withFetchWord 16 0x4012))
    (fun t => t.pc) =
    some 0x202 := by decide

/-- V-S-4. -/
theorem test_sneImm_differs : seen (step ((regs [(0, 0x13)]).withFetchWord 16 0x4012))
    (fun t => t.pc) =
    some 0x204 := by decide

/-- V-S-5. -/
theorem test_seReg_equal : seen (step ((regs [(1, 7), (2, 7)]).withFetchWord 16 0x5120))
    (fun t => t.pc) =
    some 0x204 := by decide

/-- V-S-7. -/
theorem test_sneReg_equal : seen (step ((regs [(1, 1), (2, 1)]).withFetchWord 16 0x9120))
    (fun t => t.pc) =
    some 0x202 := by decide

/-- V-S-9. -/
theorem test_sneReg_differs : seen (step ((regs [(1, 1), (2, 2)]).withFetchWord 16 0x9120))
    (fun t => t.pc) =
    some 0x204 := by decide

/-- V-6-1. -/
theorem test_ldImm : seen (step (start.withFetchWord 16 0x6A3C))
    (fun t => (t.reg 0xA, t.pc)) =
    some (0x3C, 0x202) := by decide

/-- V-7-2. -/
theorem test_addImm_wraps_without_carry : seen (step ((regs [(0, 2)]).withFetchWord 16 0x70FF))
    (fun t => (t.reg 0, t.reg 15)) =
    some (0x01, 0) := by decide

/-- V-7-3. -/
theorem test_addImm_into_VF : seen (step ((regs [(15, 1)]).withFetchWord 16 0x7FFF))
    (fun t => t.reg 15) =
    some 0 := by decide

/-- V-8-1. -/
theorem test_ldReg : seen (step ((regs [(1, 0x5A)]).withFetchWord 16 0x8010))
    (fun t => (t.reg 0, t.reg 1)) =
    some (0x5A, 0x5A) := by decide

/-- V-8-2. -/
theorem test_orReg_keeps_VF : seen (step ((regs [(0, 0xF0), (1, 0x0F), (15, 7)]).withFetchWord 16 0x8011))
    (fun t => (t.reg 0, t.reg 15)) =
    some (0xFF, 7) := by decide

/-- V-8-3. -/
theorem test_andReg : seen (step ((regs [(0, 0xF0), (1, 0x3C)]).withFetchWord 16 0x8012))
    (fun t => t.reg 0) =
    some 0x30 := by decide

/-- V-8-4. -/
theorem test_xorReg : seen (step ((regs [(0, 0xF0), (1, 0x3C)]).withFetchWord 16 0x8013))
    (fun t => t.reg 0) =
    some 0xCC := by decide

/-- V-8-7. -/
theorem test_addReg_255_is_no_carry : seen (step ((regs [(0, 0x7F), (1, 0x80)]).withFetchWord 16 0x8014))
    (fun t => (t.reg 0, t.reg 15)) =
    some (0xFF, 0) := by decide

/-- V-8-9. -/
theorem test_addReg_reads_VF_first : seen (step ((regs [(0, 1), (15, 0xFF)]).withFetchWord 16 0x80F4))
    (fun t => (t.reg 0, t.reg 15)) =
    some (0, 1) := by decide

/-- E3. -/
theorem test_sub_borrows : seen (step ((regs [(0, 1), (1, 5)]).withFetchWord 16 0x8015))
    (fun t => (t.reg 0, t.reg 15)) =
    some (0xFC, 0) := by decide

/-- V-8-10. -/
theorem test_sub_equal_is_strict : seen (step ((regs [(0, 7), (1, 7)]).withFetchWord 16 0x8015))
    (fun t => (t.reg 0, t.reg 15)) =
    some (0, 0) := by decide

/-- V-8-19. -/
theorem test_shr_under_VX : seen (step ((regs [(1, 3), (2, 0x80)]).withFetchWord 16 0x8126))
    (fun t => (t.reg 1, t.reg 15)) =
    some (1, 1) := by decide

/-- V-8-20. -/
theorem test_shr_under_VY : seen (step ((shiftVy (regs [(1, 3), (2, 0x80)])).withFetchWord 16 0x8126))
    (fun t => (t.reg 1, t.reg 15)) =
    some (0x40, 0) := by decide

/-- V-8-13. -/
theorem test_subn : seen (step ((regs [(0, 1), (1, 5)]).withFetchWord 16 0x8017))
    (fun t => (t.reg 0, t.reg 15)) =
    some (4, 1) := by decide

/-- V-8-15. -/
theorem test_subn_equal_is_strict : seen (step ((regs [(0, 7), (1, 7)]).withFetchWord 16 0x8017))
    (fun t => (t.reg 0, t.reg 15)) =
    some (0, 0) := by decide

/-- V-8-23. -/
theorem test_shl_into_VF : seen (step ((regs [(15, 0x40)]).withFetchWord 16 0x8F0E))
    (fun t => t.reg 15) =
    some 0 := by decide

/-- V-8-24. -/
theorem test_shl_under_VY : seen (step ((shiftVy (regs [(1, 1), (2, 0x81)])).withFetchWord 16 0x812E))
    (fun t => (t.reg 1, t.reg 15)) =
    some (2, 1) := by decide

/-- V-A-2. -/
theorem test_ldI : seen (step ((start.setI 0xFFFF).withFetchWord 16 0xAFFF))
    (fun t => t.I) =
    some 0x0FFF := by decide

/-- V-B-1. -/
theorem test_jpV0 : seen (step ((regs [(0, 0xFF)]).withFetchWord 16 0xB300))
    (fun t => t.pc) =
    some 0x3FF := by decide

/-- V-B-3. -/
theorem test_jpV0_past_memory : seen (step ((regs [(0, 1)]).withFetchWord 16 0xBFFF))
    (fun t => t.pc) =
    some 0x1000 := by decide

/-- V-C-1. -/
theorem test_rnd_masks_the_port_byte : seen (step ((start.driveRnd 0xAB).withFetchWord 16 0xC0F0))
    (fun t => (t.reg 0, t.rnd)) =
    some (0xA0, none) := by decide

/-- V-D-1. -/
theorem test_drw_rows : seen (step (((start.setI 0x300).storeBytes 0x300 [0xFF, 0x81]).withFetchWord 16 0xD012))
    (fun t => (t.fb[0], t.fb[1], t.reg 15, t.dirty, t.pc)) =
    some (0xFF, 0x81, 0, true, 0x202) := by decide

/-- V-D-7. -/
theorem test_drw_collides : seen (step ((((start.setI 0x300).storeBytes 0x300 [0x0F]).setFb (Display.flip (Display.flip start.fb 4 0) 5 0)).withFetchWord 16 0xD011))
    (fun t => (t.fb[0], t.reg 15)) =
    some (0xC0, 1) := by decide

/-- V-E-1. -/
theorem test_skp_held : seen (step ((start.driveKeys 1).withFetchWord 16 0xE09E))
    (fun t => t.pc) =
    some 0x204 := by decide

/-- V-E-5. -/
theorem test_skp_index_out_of_range : seen (step ((regs [(0, 0x10)]).withFetchWord 16 0xE09E))
    (fun t => (t.faultCause, t.faultPc, t.faultInfo, t.runState)) =
    some (.keyIndexFault, 0x200, 0x10, .faulted) := by decide

/-- V-E-3. -/
theorem test_sknp_held : seen (step ((start.driveKeys 1).withFetchWord 16 0xE0A1))
    (fun t => t.pc) =
    some 0x202 := by decide

/-- V-E-4. -/
theorem test_sknp_not_held : seen (step (((start.setReg 5 0x0F).driveKeys 0).withFetchWord 16 0xE5A1))
    (fun t => t.pc) =
    some 0x204 := by decide

/-- V-F-1. -/
theorem test_ldVxDt : seen (step ((start.setDt 0x2A).withFetchWord 16 0xF307))
    (fun t => (t.reg 3, t.dt)) =
    some (0x2A, 0x2A) := by decide

/-- V-F-4. -/
theorem test_ldVxK_waits : seen (step (start.withFetchWord 16 0xF20A))
    (fun t => (t.runState, t.waitReg, t.pc, t.forcePresents)) =
    some (.awaitKey, 2, 0x200, 1) := by decide

/-- V-F-2. -/
theorem test_ldDtVx : seen (step ((regs [(0, 5)]).withFetchWord 16 0xF015))
    (fun t => (t.dt, t.st)) =
    some (5, 0) := by decide

/-- V-F-3. -/
theorem test_ldStVx : seen (step ((regs [(0, 3)]).withFetchWord 16 0xF018))
    (fun t => (t.st, t.dt)) =
    some (3, 0) := by decide

/-- V-F-8. -/
theorem test_addI_wraps : seen (step (((start.setReg 0 1).setI 0xFFFF).withFetchWord 16 0xF01E))
    (fun t => (t.I, t.reg 15)) =
    some (0, 1) := by decide

/-- V-F-10. -/
theorem test_addI_clears_VF_after_reading_it : seen (step (((start.setReg 15 5).setI 0x100).withFetchWord 16 0xFF1E))
    (fun t => (t.I, t.reg 15)) =
    some (0x105, 0) := by decide

/-- V-F-12. -/
theorem test_ldF_takes_the_whole_byte : seen (step ((regs [(0, 0xFF)]).withFetchWord 16 0xF029))
    (fun t => t.I) =
    some 0x4FB := by decide

/-- E7. -/
theorem test_ldB : seen (step (((start.setReg 0 0xFA).setI 0x300).withFetchWord 16 0xF033))
    (fun t => (t.readByte 0x300, t.readByte 0x301, t.readByte 0x302)) =
    some (2, 5, 0) := by decide

/-- V-F-17. -/
theorem test_ldB_below_200 : seen (step ((start.setI 0x1FF).withFetchWord 16 0xF033))
    (fun t => (t.faultCause, t.faultPc, t.faultInfo, t.runState)) =
    some (.reservedWriteFault, 0x200, 0x1FF, .faulted) := by decide

/-- V-F-18. -/
theorem test_ldMemVx : seen (step (((regs [(0, 0x11), (1, 0x22), (2, 0x33)]).setI 0x400).withFetchWord 16 0xF255))
    (fun t => (t.readBytes 0x400 4, t.I)) =
    some ([0x11, 0x22, 0x33, 0], 0x400) := by decide

/-- V-F-19. -/
theorem test_ldMemVx_below_200 : seen (step ((start.setI 0x1FF).withFetchWord 16 0xF055))
    (fun t => (t.faultCause, t.faultPc, t.faultInfo, t.runState)) =
    some (.reservedWriteFault, 0x200, 0x1FF, .faulted) := by decide

/-- V-F-20. -/
theorem test_ldVxMem_font : seen (step (start.withFetchWord 16 0xFF65))
    (fun t => t.v.toList) =
    some [0xF0, 0x90, 0x90, 0x90, 0xF0, 0x20, 0x60, 0x20, 0x20, 0x70, 0xF0, 0x10, 0xF0, 0x80, 0xF0, 0xF0] := by decide

/-- V-F-22. -/
theorem test_ldVxMem_outside_memory : seen (step ((start.setI 0xFFF).withFetchWord 16 0xF165))
    (fun t => (t.faultCause, t.faultPc, t.faultInfo, t.runState)) =
    some (.addressFault, 0x200, 0x1000, .faulted) := by decide

/-! ### Draw edges, fetch, events, memory -/

/-- V-D-3, V-D-4, V-D-5: column 64 of row 0; V-D-15: flat index 2048. -/
theorem test_draw_edges :
    placeBit .clip 64 0 = .dropped ∧ placeBit .wrap 64 0 = .cell 0 0 ∧ placeBit .flat 64 0 = .cell 0 1 ∧
    placeBit .flat 0 32 = .outside 2048 ∧ placeBit .clip 63 31 = .cell 63 31 := by decide

/-- V-X-1: the last legal fetch. -/
theorem test_fetch_at_FFE : seen (step (start.setPc 0xFFE)) (fun t => (t.pc, t.runState)) =
    some (0x1000, .run) := by decide

/-- V-X-2. -/
theorem test_fetch_at_FFF : seen (step (start.setPc 0xFFF))
    (fun t => (t.faultCause, t.faultPc, t.faultInfo, t.runState)) =
    some (.addressFault, 0xFFF, 0x1000, .faulted) := by decide

/-- V-8-25. -/
theorem test_illegal_word : seen (step (start.withFetchWord 16 0x8018))
    (fun t => (t.faultCause, t.faultPc, t.faultInfo, t.runState)) =
    some (.illegalInstruction, 0x200, 0x8018, .faulted) := by decide

/-- V-F-5. -/
theorem test_key_press_completes :
    seen (step (((start.setPc 0x200).awaitKey 2).setInputs [.keyPress 7])) (fun t => (t.reg 2, t.pc, t.runState)) =
    some (7, 0x202, .run) := by decide

/-- V-X-5. -/
theorem test_tick : seen (step ((start.setSt 1).setInputs [.tick])) (fun t => (t.dt, t.st)) = some (0, 0) := by
  decide

/-- V-F-6: FROZEN. -/
theorem test_tick_in_key_wait : seen (step (((start.setDt 5).awaitKey 2).setInputs [.tick])) (fun t => t.dt) =
    some 5 := by decide

/-- V-X-4. -/
theorem test_reset_event :
    seen (step ((((regs [(3, 9)]).setI 0x456).storeBytes 0x300 [1]).setInputs [.reset]))
      (fun t => (t.reg 3, t.I, t.mem, t.readByte 5)) = some (0, 0, [], 0x20) := by decide

/-- R363: the first byte of a ROM lies at 0x200. -/
theorem test_load_event : seen (step (start.setInputs [.load [0x12, 0x00]]))
    (fun t => (t.readByte 0x200, t.mem)) = some (0x12, [(0x200, 0x12)]) := by decide

/-- R363: a ROM one byte too long changes nothing but the report of the error (log 11). -/
theorem test_load_too_long : start.load (List.replicate 3585 0) = { start with loadErrors := 1 } :=
  if_pos (List.length_replicate.symm ▸ by decide)

/-- R228 and R272: the events that supply a random byte and drive the key level. -/
theorem test_port_events : seen (step (start.setInputs [.rnd 0xAB])) (fun t => (t.rnd, t.inputs)) = some (some 0xAB, []) ∧
    seen (step (start.setInputs [.keysHeld 3])) (fun t => (t.keysHeld, t.inputs)) = some (some 3, []) := by decide

/-- Writing what an unlisted address reads as removes its entry (log 15). -/
theorem test_memory_canonical :
    ((start.storeBytes 0x300 [1, 2]).storeBytes 0x300 [0]).mem = [(0x301, 2)] := by decide

/-- The instruction that `withFetchWord` places is the first that runs. -/
theorem test_with_fetch_word : seen (step ((start.setPc 0xFFFF).withFetchWord 16 0x6A3C))
    (fun t => (t.reg 0xA, t.pc)) = some (0x3C, 0x202) := by decide

/-! ### Witnesses: concrete states and operands that meet the hypotheses of the obligations -/

theorem witness_SysOnlyAdvances : 0x0E1#12 ≠ 0x0E0#12 ∧ 0x0E1#12 ≠ 0x0EE#12 := by decide

theorem witness_CallPushesItsOwnAddress_room : (withStack 15 0).sp.val < 16 := by decide

theorem witness_CallPushesItsOwnAddress_full : (withStack 16 0).sp.val = 16 := by decide

theorem witness_ReturnPopsAndAdvances_some : 0 < (withStack 1 0x204).sp.val := by decide

theorem witness_ReturnPopsAndAdvances_empty : start.sp.val = 0 := by decide

theorem witness_ReturnResumesAfterTheCall : (withStack 15 0).sp.val < 16 ∧ ∃ t t' : State,
    exec (.call 0x300#12) (withStack 15 0) = .next t ∧ t'.stack = t.stack ∧ t'.sp = t.sp :=
  ⟨by decide, _, _, rfl, rfl, rfl⟩

theorem witness_SkipsCompareRegisters : 0x1#4 ≠ 0x0#4 ∧ 0xF#4 ≠ 0x0#4 := by decide

theorem witness_LogicOperationsWriteOnlyVx : ∃ (i : Instr) (r : Byte),
    (i = .ldReg 0 1 ∧ r = start.reg 1) ∨ (i = .orReg 0 1 ∧ r = start.reg 0 ||| start.reg 1) ∨
    (i = .andReg 0 1 ∧ r = start.reg 0 &&& start.reg 1) ∨ (i = .xorReg 0 1 ∧ r = start.reg 0 ^^^ start.reg 1) :=
  ⟨_, _, .inr (.inr (.inr ⟨rfl, rfl⟩))⟩

theorem witness_SubtractSetsStrictComparison : ∃ (i : Instr) (a b : Byte),
    (i = .sub 0 1 ∧ a = start.reg 0 ∧ b = start.reg 1) ∨ (i = .subn 0 1 ∧ a = start.reg 1 ∧ b = start.reg 0) :=
  ⟨_, _, _, .inr ⟨rfl, rfl, rfl⟩⟩

theorem witness_ShiftsMoveOneBitIntoVF_vx : start.params.shiftSource = .vx := by decide

theorem witness_ShiftsMoveOneBitIntoVF_vy : (shiftVy start).params.shiftSource = .vy := by decide

theorem witness_DrawFlipsExactlyTheReachedCells_last_row : (start.setI 0xFFF).I.toNat + (1#4).toNat ≤ 0x1000 := by
  decide

/-- No rows at an address outside memory: nothing is read (R250). -/
theorem witness_DrawFlipsExactlyTheReachedCells_no_rows : (0#4 = 0x0#4) ∧ (start.setI 0xFFFF).params.drawEdge ≠ .flat := by
  decide

/-- The top row of glyph 0, F0, at (60, 31): its last set bit has the last flat index, 2047. -/
theorem witness_DrawFlipsExactlyTheReachedCells_flat :
    (edge .flat (regs [(0, 60), (1, 31)])).I.toNat + (1#4).toNat ≤ 0x1000 ∧
    ∀ c r, (edge .flat (regs [(0, 60), (1, 31)])).spriteBit 1#4 c r = true →
      (((edge .flat (regs [(0, 60), (1, 31)])).reg 1).toNat + r) * 64 +
        (((edge .flat (regs [(0, 60), (1, 31)])).reg 0).toNat + c) < 2048 := by
  refine ⟨by decide, fun c r h => ?_⟩
  have hc : c < 8 := by simp [State.spriteBit] at h; exact h.1.1
  have hr : r < 1 := by simp [State.spriteBit] at h; omega
  have : ∀ c < 8, ∀ r < 1, (edge .flat (regs [(0, 60), (1, 31)])).spriteBit 1#4 c r = true →
      (((edge .flat (regs [(0, 60), (1, 31)])).reg 1).toNat + r) * 64 +
        (((edge .flat (regs [(0, 60), (1, 31)])).reg 0).toNat + c) < 2048 := by decide
  exact this c hc r hr h

theorem witness_DrawOutsideMemoryFaults : (2#4 ≠ 0x0#4) ∧ 0x1000 < (start.setI 0xFFF).I.toNat + (2#4).toNat := by
  decide

/-- The same row one column further: its last set bit has flat index 2048. -/
theorem witness_FlatDrawPastTheArrayFaults :
    (edge .flat (regs [(0, 61), (1, 31)])).I.toNat + (1#4).toNat ≤ 0x1000 ∧
    (edge .flat (regs [(0, 61), (1, 31)])).params.drawEdge = .flat ∧
    ∃ c r, (edge .flat (regs [(0, 61), (1, 31)])).spriteBit 1#4 c r = true ∧
      2048 ≤ (((edge .flat (regs [(0, 61), (1, 31)])).reg 1).toNat + r) * 64 +
        (((edge .flat (regs [(0, 61), (1, 31)])).reg 0).toNat + c) :=
  ⟨by decide, by decide, 3, 0, by decide⟩

theorem witness_DoubleDrawRestoresDisplay : ∃ t s' u : State,
    exec (.drw 0 1 5#4) start = .next t ∧ t.runState ≠ .faulted ∧ s'.fb = t.fb ∧ s'.I = start.I ∧
    s'.params = start.params ∧ s'.reg 0 = start.reg 0 ∧ s'.reg 1 = start.reg 1 ∧
    (∀ a, s'.readByte a = start.readByte a) ∧ exec (.drw 0 1 5#4) s' = .next u :=
  ⟨_, _, _, rfl, by decide, rfl, rfl, rfl, by decide, by decide, fun _ => rfl, rfl⟩

theorem witness_ClearThenDrawShowsTheSpriteAlone : ∃ t u : State,
    exec .cls start = .next t ∧ exec (.drw 0 1 5#4) t = .next u ∧ u.runState = start.runState ∧
    start.runState ≠ .faulted :=
  ⟨_, _, rfl, rfl, by decide, by decide⟩

theorem witness_KeySkipsFollowTheKeyLevel : ((regs [(0, 15)]).reg 0).toNat < 16 := by decide

theorem witness_KeySkipsFollowTheKeyLevel_event : (start.setInputs [.keysHeld 0x8000]).inputs = [.keysHeld 0x8000] := by
  decide

theorem witness_KeyIndexOutOfRangeFaults : (Instr.skp 0 = .skp 0 ∨ Instr.skp 0 = .sknp 0) ∧
    16 ≤ ((regs [(0, 16)]).reg 0).toNat := by decide

theorem witness_KeyPressCompletesTheWait :
    ((start.awaitKey 2).setInputs [.keyPress 15]).runState = .awaitKey ∧
    ((start.awaitKey 2).setInputs [.keyPress 15]).inputs = [.keyPress 15] := by decide

/-- A tick in AWAIT_KEY, under FROZEN. -/
theorem witness_OnlyKeyPressOrResetEndsTheWait : ∃ t : State,
    ((start.awaitKey 2).setInputs [.tick]).runState = .awaitKey ∧
    step ((start.awaitKey 2).setInputs [.tick]) = .next t ∧
    (∀ k es, ((start.awaitKey 2).setInputs [.tick]).inputs ≠ .keyPress k :: es) ∧
    (∀ es, ((start.awaitKey 2).setInputs [.tick]).inputs ≠ .reset :: es) ∧
    (∀ rom es, ((start.awaitKey 2).setInputs [.tick]).inputs ≠ .load rom :: es) ∧
    ((start.awaitKey 2).setInputs [.tick]).params.timersInKeyWait = .frozen :=
  ⟨_, by decide, rfl, by simp, by simp, by simp, by decide⟩

/-- A load in AWAIT_KEY in a state that has no first step recorded, which no run reaches. -/
theorem witness_OnlyKeyPressOrResetEndsTheWait_load :
    ((start.awaitKey 2).setInputs [.load [1]]).runState = .awaitKey ∧
    seen (step ((start.awaitKey 2).setInputs [.load [1]])) (fun t => decide (t.mem ≠ start.mem)) = some true := by
  decide

/-- A step in AWAIT_KEY, listed and not, after a first step. -/
theorem witness_OnlyKeyPressOrResetEndsTheWait_step : ∀ es ∈ [[], [Event.step]],
    ((start.setStarted.awaitKey 2).setInputs es).runState = .awaitKey ∧
    ((start.setStarted.awaitKey 2).setInputs es).started = true ∧
    seen (step ((start.setStarted.awaitKey 2).setInputs es)) (fun t => t.runState) = some .awaitKey := by decide

theorem witness_RandomIsMaskedPortByte : (start.setInputs [.rnd 0xFF]).inputs = [.rnd 0xFF] := by decide

theorem witness_AddIndexKeeps16BitsAndFlagsTheExactSum :
    ((start.setReg 0 1).setI 0xFFF).I.toNat + (((start.setReg 0 1).setI 0xFFF).reg 0).toNat > 0xFFF ∧
    ((start.setReg 0 0).setI 0xFFF).I.toNat + (((start.setReg 0 0).setI 0xFFF).reg 0).toNat ≤ 0xFFF := by decide

theorem witness_GlyphAddressIsFiveTimesTheByte : ((regs [(0, 15)]).reg 0).toNat < 16 := by decide

theorem witness_StoreDecimalDigits :
    Memory.wf (start.setI 0xFFD).base (start.setI 0xFFD).mem = true ∧ (start.setI 0xFFD).I.toNat + 3 ≤ 0x1000 ∧
    ((start.setI 0xFFD).params.lowWritePolicy = .perform ∨ 0x200 ≤ (start.setI 0xFFD).I.toNat) := by decide

theorem witness_StoreDecimalDigits_lowest :
    (start.setI 0x200).I.toNat + 3 ≤ 0x1000 ∧
    ((start.setI 0x200).params.lowWritePolicy = .perform ∨ 0x200 ≤ (start.setI 0x200).I.toNat) := by decide

theorem witness_StoreDecimalDigits_perform :
    Memory.wf (perform start).base (perform start).mem = true ∧ (perform start).I.toNat + 3 ≤ 0x1000 ∧
    ((perform start).params.lowWritePolicy = .perform ∨ 0x200 ≤ (perform start).I.toNat) := by decide

theorem witness_StoreRegistersWritesTheBlock :
    Memory.wf (start.setI 0xFF0).base (start.setI 0xFF0).mem = true ∧
    (start.setI 0xFF0).I.toNat + (15 : Reg).val + 1 ≤ 0x1000 ∧
    ((start.setI 0xFF0).params.lowWritePolicy = .perform ∨ 0x200 ≤ (start.setI 0xFF0).I.toNat) := by decide

theorem witness_LoadRegistersReadsTheBlock_inside : (start.setI 0xFFF).I.toNat + (0 : Reg).val + 1 ≤ 0x1000 := by decide

theorem witness_LoadRegistersReadsTheBlock_outside : 0x1000 < (start.setI 0xFFF).I.toNat + (1 : Reg).val + 1 := by
  decide

theorem witness_ForbiddenStoresFault_outside :
    0 < storedBytes (.ldB 0) ∧ 0x1000 < (start.setI 0xFFE).I.toNat + storedBytes (.ldB 0) := by decide

theorem witness_ForbiddenStoresFault_low :
    0 < storedBytes (.ldMemVx 0) ∧ (start.setI 0x1FF).I.toNat + storedBytes (.ldMemVx 0) ≤ 0x1000 ∧
    (start.setI 0x1FF).params.lowWritePolicy = .fault ∧ (start.setI 0x1FF).I.toNat < 0x200 := by decide

theorem witness_StoreThenLoadRestoresRegisters : ∃ t t' : State,
    Memory.wf (start.setI 0x300).base (start.setI 0x300).mem = true ∧
    exec (.ldMemVx 15) (start.setI 0x300) = .next t ∧ t.runState ≠ .faulted ∧
    t'.mem = t.mem ∧ t'.params = t.params ∧ t'.I = t.I :=
  ⟨_, _, by decide, rfl, by decide, rfl, rfl, rfl⟩

theorem witness_FaultsArePrecise : ∃ t : State,
    start.runState ≠ .faulted ∧ exec .ret start = .next t ∧ t.runState = .faulted :=
  ⟨_, by decide, rfl, by decide⟩

theorem witness_IllegalWordsFault :
    (start.withFetchWord 16 0x8018).runState = .run ∧ (start.withFetchWord 16 0x8018).inputs = [] ∧
    (start.withFetchWord 16 0x8018).pc.toNat + 1 < 0x1000 ∧
    decode (wordOfBytes ((start.withFetchWord 16 0x8018).readByte 0x200)
      ((start.withFetchWord 16 0x8018).readByte 0x201)) = none := by decide

/-- The same with a step listed first. -/
theorem witness_IllegalWordsFault_listed :
    ((start.withFetchWord 16 0x8018).setInputs [.step, .tick]).runState = .run ∧
    ((start.withFetchWord 16 0x8018).setInputs [.step, .tick]).inputs = [.step, .tick] ∧
    ((start.withFetchWord 16 0x8018).setInputs [.step, .tick]).pc.toNat + 1 < 0x1000 ∧
    decode (wordOfBytes (((start.withFetchWord 16 0x8018).setInputs [.step, .tick]).readByte 0x200)
      (((start.withFetchWord 16 0x8018).setInputs [.step, .tick]).readByte 0x201)) = none := by decide

theorem witness_FetchOutsideMemoryFaults_listed :
    ((start.setPc 0x1000).setInputs [.step, .tick]).runState = .run ∧
    ((start.setPc 0x1000).setInputs [.step, .tick]).inputs = [.step, .tick] ∧
    0x1000 ≤ ((start.setPc 0x1000).setInputs [.step, .tick]).pc.toNat + 1 := by decide

theorem witness_FetchOutsideMemoryFaults :
    (start.setPc 0xFFF).runState = .run ∧ (start.setPc 0xFFF).inputs = [] ∧
    0x1000 ≤ (start.setPc 0xFFF).pc.toNat + 1 := by decide

/-- No event listed, and each event that does nothing in FAULTED. -/
theorem witness_FaultedIsTerminalUntilReset : ∀ es ∈ [[], [Event.step], [Event.tick], [Event.keyPress 3]],
    ((inRunState .faulted start).setInputs es).runState = .faulted ∧
    (seen (step ((inRunState .faulted start).setInputs es)) (fun t => t.runState)) = some .faulted ∧
    ((inRunState .faulted start).setInputs es).inputs.head? ≠ some .reset := by decide

theorem witness_StepRunsTheDecodedInstruction :
    ((start.setPc 0xFFE).setInputs [.step]).runState = .run ∧
    ((start.setPc 0xFFE).setInputs [.step]).pc.toNat + 1 < 0x1000 ∧
    decode (wordOfBytes (((start.setPc 0xFFE).setInputs [.step]).readByte 0xFFE)
      (((start.setPc 0xFFE).setInputs [.step]).readByte 0xFFF)) = some (.sys 0) ∧
    ((start.setPc 0xFFE).setInputs [.step]).inputs = [.step] ∧ start.inputs = [] := by decide

theorem witness_TickDecrementsNonZeroTimers :
    (start.setInputs [.tick]).runState = .run ∧ (start.setInputs [.tick]).inputs = [.tick] := by decide

/-- A tick in FAULTED, and in AWAIT_KEY under FROZEN and under RUNNING. -/
theorem witness_TicksAndPressesInOtherRunStates_tick :
    ((inRunState .faulted start).setInputs [.tick]).inputs = [.tick] ∧
    ((inRunState .faulted start).setInputs [.tick]).runState = .faulted ∧
    (start.awaitKey 1).runState = .awaitKey ∧ (start.awaitKey 1).params.timersInKeyWait = .frozen ∧
    ({ (start.awaitKey 1) with params := { start.params with timersInKeyWait := .running } } : State).runState =
      .awaitKey := by decide

theorem witness_TicksAndPressesInOtherRunStates_press :
    (start.setInputs [.keyPress 15]).inputs = [.keyPress 15] ∧
    (start.setInputs [.keyPress 15]).runState ≠ .awaitKey := by decide

theorem witness_ResetEventGivesTheResetValues : (start.setInputs [.reset]).inputs = [.reset] := by decide

/-- The longest ROM that fits. -/
theorem witness_LoadCopiesTheRomBeforeTheFirstStep_fits :
    (start.setInputs [.load (List.replicate 3584 0)]).inputs = [.load (List.replicate 3584 0)] ∧
    (start.setInputs [.load (List.replicate 3584 0)]).started = false ∧
    (List.replicate 3584 (0 : Byte)).length ≤ 3584 ∧ Memory.wf start.base start.mem = true :=
  ⟨rfl, rfl, List.length_replicate.le, by decide⟩

theorem witness_LoadCopiesTheRomBeforeTheFirstStep_too_long :
    3584 < (List.replicate 3585 (0 : Byte)).length ∧ start.started = false :=
  ⟨List.length_replicate.symm ▸ by decide, rfl⟩

theorem witness_LoadCopiesTheRomBeforeTheFirstStep_late :
    (start.setStarted.setInputs [.load []]).started = true ∧
    (start.setStarted.setInputs [.load []]).inputs = [.load []] := by decide

theorem witness_StepStopsOnlyOnBadLoads_late :
    (∃ rom es, (start.setStarted.setInputs [.load []]).inputs = .load rom :: es) ∧
    (start.setStarted.setInputs [.load []]).started = true := ⟨⟨_, _, rfl⟩, rfl⟩

theorem witness_StepStopsOnlyOnBadLoads_other :
    ¬ ((∃ rom es, (start.setInputs [.load []]).inputs = .load rom :: es) ∧
      (start.setInputs [.load []]).started = true) := fun h => absurd h.2 (by decide)

theorem witness_PresentAckClearsDirty : (start.setInputs [.presentAck]).inputs = [.presentAck] := by decide

theorem witness_OnlyNamedRegistersChange : ∃ t : State,
    exec (.ldImm 0 5) start = .next t ∧ writesReg (.ldImm 0 5) 1 = false := ⟨_, rfl, by decide⟩

/-- Each kind of state changes somewhere. -/
theorem witness_SpecialRegistersChangeOnlyByTheirInstructions :
    seen (exec (.ldI 5) start) (fun t => decide (t.I ≠ start.I)) = some true ∧
    seen (exec (.call 5) start) (fun t => decide (t.stack ≠ start.stack ∨ t.sp ≠ start.sp)) = some true ∧
    seen (exec (.ldDtVx 0) (regs [(0, 1)])) (fun t => decide (t.dt ≠ start.dt)) = some true ∧
    seen (exec (.ldStVx 0) (regs [(0, 1)])) (fun t => decide (t.st ≠ start.st)) = some true ∧
    seen (exec .cls start) (fun t => decide (t.dirty ≠ start.dirty)) = some true ∧
    (start.setDirty true).dirty = true ∧
    seen (exec (.ldVxK 1) start) (fun t => decide (t.waitReg ≠ start.waitReg ∧ t.runState ≠ start.runState)) =
      some true ∧
    seen (exec .ret start) (fun t => decide (t.faultCause ≠ start.faultCause)) = some true := by decide

theorem witness_MemoryChangesOnlyInTheStoredBytes : ∃ t : State,
    Memory.wf (start.setI 0x300).base (start.setI 0x300).mem = true ∧
    exec (.ldB 0) (start.setI 0x300) = .next t ∧ storedBytes (.cls) = 0 := ⟨_, by decide, rfl, by decide⟩

/-- One instruction for each of the cases, from a state in RUN, not faulting. -/
theorem witness_ProgramCounterFollowsTheFiveCases :
    ∀ i ∈ [Instr.jp 5, .call 5, .jpV0 5, .ret, .ldVxK 1, .seImm 0 0, .sneImm 0 0, .seReg 0 1, .sneReg 0 1, .skp 0,
      .sknp 0, .ldI 5],
    (withStack 1 0x204).runState = .run ∧
    seen (exec i (withStack 1 0x204)) (fun t => decide (t.runState ≠ .faulted)) = some true := by decide

theorem witness_SoundTimerAndDirtyAreNeverRead : ∃ t : State, exec (.ldStVx 0) start = .next t := ⟨_, rfl⟩

/-- The stacks agree below SP = 1 and differ above. -/
theorem witness_StaleStackEntriesAreInvisible : ∃ t : State,
    (∀ (k : Nat) (h : k < 16), k < (withStack 1 0x204).sp.val →
      ((withStack 1 0x204).stack.set 1 0x999)[k] = (withStack 1 0x204).stack[k]) ∧
    exec .ret (withStack 1 0x204) = .next t := by
  refine ⟨_, fun k h hk => ?_, rfl⟩
  have : k = 0 := by have : k < 1 := hk; omega
  subst this
  rfl

theorem witness_DecodeOfEncodeIsTheInstruction : (Instr.sys 0x0E1#12).wf = true := by decide

theorem witness_EncodeOfDecodeIsTheWord : decode 0xFFFF#16 = none ∧ decode 0xFF65#16 = some (.ldVxMem 15) := by decide

/-- The invariant holds in a state in RUN that is not the reset state, and a step goes on from it. -/
theorem witness_EveryStepKeepsTheInvariant : (regs [(0, 5)]).Inv ∧ ∃ t, step (regs [(0, 5)]) = .next t := by
  refine ⟨⟨by decide, by decide, by decide, by decide, by decide, by decide, by decide, by decide, ?_⟩, _, rfl⟩
  exact fun _ _ _ => rfl

/-- The invariant holds in FAULTED too. -/
theorem witness_EveryStepKeepsTheInvariant_faulted :
    ((start.setStarted).raise ⟨.stackUnderflowFault, 0xEE⟩).Inv := by
  refine ⟨by decide, by decide, by decide, by decide, by decide, by decide, by decide, by decide, ?_⟩
  exact fun _ _ _ => rfl

/-- The invariant holds in AWAIT_KEY, with the waiting F20A at pc. -/
theorem witness_EveryStepKeepsTheInvariant_waiting :
    (((start.storeBytes 0x200 [0xF2, 0x0A]).setStarted).awaitKey 2).Inv := by
  refine ⟨by decide, by decide, by decide, by decide, by decide, by decide, fun _ => rfl, by decide, ?_⟩
  intro _ a ha
  have ha : a < 512 := ha
  show Memory.read _ [(0x200, 0xF2), (0x201, 0x0A)] a = _
  rw [Memory.read, if_neg (by omega), Memory.read, if_neg (by omega)]
  rfl

end Sys2Proof.Tests
end

section
/-! What an instruction can do, said once: enter FAULTED, or complete with one of a few kinds of effect. -/

namespace Sys2Proof.Machine

/-- What a completed instruction can have done, one constructor per kind of effect: each gives the whole next state,
says which instructions have the effect where a frame needs it, and that no register changes but those the
instruction writes. -/
inductive Completes (i : Instr) (s : State) : State → Prop
  /-- Registers, the rnd port and the sampling counter; pc goes on or skips. -/
  | registers (v : Vector Byte 16) (rnd : Option Byte) (draws : Nat) (c : Bool)
      (hv : ∀ r : Reg, writesReg i r = false → v[r.val] = s.v[r.val]) :
      Completes i s { s with v := v, rnd := rnd, draws := draws, pc := s.pc + if c then 4 else 2 }
  /-- A redirect within the bound of R126. -/
  | jump (a : Word) (ha : a.toNat ≤ 0x10FE) : Completes i s (s.setPc a)
  /-- I, and VF for FX1E. -/
  | index (a : Word) (v : Vector Byte 16) (hi : (∃ a, i = .ldI a) ∨ (∃ x, i = .addI x) ∨ ∃ x, i = .ldF x)
      (hv : ∀ r : Reg, writesReg i r = false → v[r.val] = s.v[r.val]) :
      Completes i s { s with I := a, v := v, pc := s.pc + 2 }
  /-- The display, dirty set, and VF for DRW. -/
  | display (fb : Display) (v : Vector Byte 16) (hi : i = .cls ∨ ∃ x y n, i = .drw x y n)
      (hv : ∀ r : Reg, writesReg i r = false → v[r.val] = s.v[r.val]) :
      Completes i s { s with fb := fb, dirty := true, v := v, pc := s.pc + 2 }
  | delayTimer (x : Reg) (b : Byte) (hi : i = .ldDtVx x) : Completes i s (s.setDt b).advance
  | soundTimer (x : Reg) (b : Byte) (hi : i = .ldStVx x) : Completes i s (s.setSt b).advance
  | ret (k : Nat) (hk : k < 16) (hi : i = .ret) :
      Completes i s { s with sp := ⟨k, by omega⟩, pc := s.stack[k] + 2 }
  | call (a : Addr12) (hsp : s.sp.val < 16) (hi : i = .call a) :
      Completes i s { s with
        stack := s.stack.set s.sp.val s.pc, sp := ⟨s.sp.val + 1, by omega⟩, pc := zext16 a }
  | wait (x : Reg) (hi : i = .ldVxK x) : Completes i s (s.awaitKey x)
  /-- A store from I on that passed its checks (R66, R67). -/
  | store (ws : List Byte) (hlen : storedBytes i = ws.length) (hin : s.I.toNat + ws.length ≤ Config.memSize)
      (hlow : s.params.lowWritePolicy = .perform ∨ Config.progBase ≤ s.I.toNat) :
      Completes i s (s.storeBytes s.I.toNat ws).advance

variable {i : Instr} {s t : State}

theorem Completes.skip (c : Bool) : Completes i s (s.skipIf c) := .registers _ _ _ c fun _ _ => rfl

theorem Completes.keySkip (c : Bool) : Completes i s (s.sampledKeys.skipIf c) :=
  .registers _ _ _ c fun _ _ => rfl

/-- A result in one register. -/
theorem Completes.setReg {x : Reg} (hx : ∀ r, writesReg i r = false → r ≠ x) (b : Byte) :
    Completes i s (s.setReg x b).advance :=
  .registers _ _ _ false fun r hr => (State.reg_setReg s x r b).trans (if_neg (hx r hr))

/-- A result and the flag. -/
theorem Completes.setRegFlag {x : Reg} (hx : ∀ r, writesReg i r = false → r ≠ x ∧ r ≠ VF) (b : Byte) (c : Bool) :
    Completes i s (s.setRegFlag x b c).advance :=
  .registers _ _ _ false fun r hr => by
    obtain ⟨hrx, hrf⟩ := hx r hr
    exact (State.reg_setRegFlag s x r b c).trans (by rw [if_neg hrf, if_neg hrx]; rfl)

/-- A target given by NNN lies in memory (R94). -/
theorem toNat_zext16_le (nnn : Addr12) : (zext16 nnn).toNat ≤ 0xFFF := by
  have := nnn.isLt
  simp only [zext16, BitVec.toNat_setWidth]
  omega

/-- The largest target of a jump with offset (R126). -/
theorem toNat_zext16_add_le (nnn : Addr12) (b : Byte) : (zext16 nnn + b.setWidth 16).toNat ≤ 0x10FE := by
  have := toNat_zext16_le nnn
  have := b.isLt
  simp only [BitVec.toNat_add, BitVec.toNat_setWidth]
  omega

theorem execAddI_completes (x : Reg) (s : State) : ∃ t, Completes (.addI x) s t ∧ execAddI x s = .next t := by
  refine ⟨_, ?_, rfl⟩
  rcases setIndexFlag_cases (s.setI (BitVec.ofNat 16 (indexSum s.I (s.reg x)))) (indexSum s.I (s.reg x))
    with ⟨c, h⟩ | h <;> rw [h]
  · exact .index _ _ (.inr (.inl ⟨x, rfl⟩)) fun r hr =>
      (State.reg_setFlag s r c).trans (if_neg (by simpa [writesReg] using hr))
  · exact .index _ _ (.inr (.inl ⟨x, rfl⟩)) fun _ _ => rfl

/-- Every instruction either enters FAULTED under a cause that its rule lists, or completes (R129, R325). -/
theorem exec_cases (i : Instr) (s : State) :
    (∃ e : Trap, e.cause ∈ mayRaise i ∧ exec i s = .next (s.raise e)) ∨
    ∃ t, Completes i s t ∧ exec i s = .next t := by
  cases i with
  | sys _ => exact .inr ⟨_, .skip false, rfl⟩
  | seImm _ _ | sneImm _ _ | seReg _ _ | sneReg _ _ => exact .inr ⟨_, .skip _, rfl⟩
  | jp nnn => exact .inr ⟨_, .jump _ ((toNat_zext16_le nnn).trans (by decide)), rfl⟩
  | jpV0 nnn => exact .inr ⟨_, .jump _ (toNat_zext16_add_le nnn _), rfl⟩
  | ldImm x _ | addImm x _ | ldReg x _ | orReg x _ | andReg x _ | xorReg x _ | ldVxDt x =>
    exact .inr ⟨_, .setReg (x := x) (by simp [writesReg]) _, rfl⟩
  | addReg x _ | sub x _ | shr x _ | subn x _ | shl x _ =>
    exact .inr ⟨_, .setRegFlag (x := x) (by simp [writesReg]) _ _, rfl⟩
  | rnd x nn =>
    exact .inr ⟨_, .registers _ _ _ false fun r hr =>
      (State.reg_setReg s x r _).trans (if_neg (by simpa [writesReg] using hr)), rfl⟩
  | ldI nnn => exact .inr ⟨_, .index _ _ (.inl ⟨nnn, rfl⟩) fun _ _ => rfl, rfl⟩
  | ldF x => exact .inr ⟨_, .index _ _ (.inr (.inr ⟨x, rfl⟩)) fun _ _ => rfl, rfl⟩
  | addI x => exact .inr (execAddI_completes x s)
  | cls => exact .inr ⟨_, .display _ _ (.inl rfl) fun _ _ => rfl, rfl⟩
  | ldDtVx x => exact .inr ⟨_, .delayTimer x _ rfl, rfl⟩
  | ldStVx x => exact .inr ⟨_, .soundTimer x _ rfl, rfl⟩
  | ldVxK x => exact .inr ⟨_, .wait x rfl, rfl⟩
  | ret =>
    obtain ⟨k, hk, -, h⟩ | ⟨-, h⟩ := execRet_cases s
    · exact .inr ⟨_, .ret k hk rfl, h⟩
    · exact .inl ⟨_, by simp [mayRaise], h⟩
  | call nnn =>
    obtain ⟨hsp, h⟩ | ⟨-, h⟩ := execCall_cases nnn s
    · exact .inr ⟨_, .call nnn hsp rfl, h⟩
    · exact .inl ⟨_, by simp [mayRaise], h⟩
  | drw x y n =>
    obtain ⟨cells, -, h⟩ | ⟨e, he, h⟩ := execDrw_cases x y n s
    · exact .inr ⟨_, .display _ _ (.inr ⟨x, y, n, rfl⟩) fun r hr =>
        (State.reg_setFlag s r _).trans (if_neg (by simpa [writesReg] using hr)), h⟩
    · exact .inl ⟨e, by rcases he with he | he <;> simp [mayRaise, he], h⟩
  | skp x =>
    obtain ⟨-, h⟩ | ⟨-, h⟩ := execSkp_cases x s
    · exact .inr ⟨_, .keySkip _, h⟩
    · exact .inl ⟨_, by simp [mayRaise], h⟩
  | sknp x =>
    obtain ⟨-, h⟩ | ⟨-, h⟩ := execSknp_cases x s
    · exact .inr ⟨_, .keySkip _, h⟩
    · exact .inl ⟨_, by simp [mayRaise], h⟩
  | ldB x =>
    obtain ⟨hin, hlow, h⟩ | ⟨e, he, h⟩ := execLdB_cases x s
    · exact .inr ⟨_, .store (decimalDigits (s.reg x)) rfl hin hlow, h⟩
    · exact .inl ⟨e, by rcases he with he | he <;> simp [mayRaise, he], h⟩
  | ldMemVx x =>
    obtain ⟨hin, hlow, h⟩ | ⟨e, he, h⟩ := execLdMemVx_cases x s
    · exact .inr ⟨_, .store (s.regBlock x) (s.length_regBlock x).symm (by rwa [s.length_regBlock]) hlow, h⟩
    · exact .inl ⟨e, by rcases he with he | he <;> simp [mayRaise, he], h⟩
  | ldVxMem x =>
    obtain ⟨-, h⟩ | ⟨e, he, h⟩ := execLdVxMem_cases x s
    · refine .inr ⟨_, .registers _ _ _ false fun r hr => ?_, h⟩
      refine (State.reg_loadRegs s _ r).trans (if_neg ?_)
      rw [State.length_readBytes]
      exact Nat.not_lt.mpr (by simpa [writesReg] using hr : x < r)
    · exact .inl ⟨e, by simp [mayRaise, he], h⟩

/-- No rule lists the absence of a fault as a cause (R321). -/
theorem ne_none_of_mem_mayRaise {c : Cause} (h : c ∈ mayRaise i) : c ≠ .none := by
  rintro rfl
  cases i <;> simp [mayRaise] at h

/-- What a next state that exec answers can be. -/
theorem exec_next_cases (h : exec i s = .next t) :
    (∃ e : Trap, e.cause ∈ mayRaise i ∧ t = s.raise e) ∨ Completes i s t := by
  obtain ⟨e, he, h'⟩ | ⟨t', hc, h'⟩ := exec_cases i s
  · exact .inl ⟨e, he, Host.Outcome.next.inj (h.symm.trans h')⟩
  · exact .inr (Host.Outcome.next.inj (h.symm.trans h') ▸ hc)

end Sys2Proof.Machine
end

section
/-! Frames over all instructions: O48, O49. -/

namespace Sys2Proof.Machine

/-- Settles O48: a fault entry keeps every register, and each kind of completion the registers it may not write. -/
theorem onlyNamedRegistersChange : Obligations.OnlyNamedRegistersChange := by
  intro i s t r h hr
  obtain ⟨e, -, rfl⟩ | hc := exec_next_cases h
  · rfl
  · cases hc with
    | registers _ _ _ _ hv | index _ _ _ hv | display _ _ _ hv => exact hv r hr
    | jump | delayTimer | soundTimer | ret | call | wait | store => rfl

/-- Settles O49: each kind of completion writes the fields of its own instructions only, a fault entry run_state and
the fault registers. -/
theorem specialRegistersChangeOnlyByTheirInstructions :
    Obligations.SpecialRegistersChangeOnlyByTheirInstructions := by
  intro i s t h
  obtain ⟨e, -, rfl⟩ | hc := exec_next_cases h
  · simp
  · cases hc with
    | registers | jump | store => simp
    | index _ _ hi | display _ _ hi | delayTimer _ _ hi | soundTimer _ _ hi | ret _ _ hi | call _ _ hi | wait _ hi =>
      simp [hi]

end Sys2Proof.Machine
end

section
/-! What no instruction reads: O52, O53. -/

namespace Sys2Proof.Machine

/-- The two stacks hold the same entries below `n`. -/
def AgreeBelow (n : Nat) (stack stack' : Vector Word 16) : Prop :=
  ∀ (k : Nat) (h : k < 16), k < n → stack'[k] = stack[k]

/-- `s` with another content of ST, dirty and the stack. -/
def State.withUnread (s : State) (b : Byte) (d : Bool) (stack : Vector Word 16) : State :=
  { s with st := b, dirty := d, stack := stack }

/-- The outcome `o` is `t` with another content of ST, dirty and the stack entries at and above SP; each of the
three is as in `t` under its condition. -/
def AnswersBut (sameSt sameDirty sameStack : Prop) (t : State) (o : Host.Outcome State Fault Refusal) : Prop :=
  ∃ b d stack, o = .next (t.withUnread b d stack) ∧ AgreeBelow t.sp.val t.stack stack ∧
    (sameSt → b = t.st) ∧ (sameDirty → d = t.dirty) ∧ (sameStack → stack = t.stack)

section
variable (s : State) (b : Byte) (d : Bool) (stack : Vector Word 16)

/-! What the instructions read of a state is blind to ST, dirty and the stack. -/

@[simp] theorem State.withUnread_I : (s.withUnread b d stack).I = s.I := rfl
@[simp] theorem State.withUnread_sp : (s.withUnread b d stack).sp = s.sp := rfl
@[simp] theorem State.withUnread_params : (s.withUnread b d stack).params = s.params := rfl
@[simp] theorem State.withUnread_reg (x : Reg) : (s.withUnread b d stack).reg x = s.reg x := rfl
@[simp] theorem State.withUnread_regBlock (x : Reg) : (s.withUnread b d stack).regBlock x = s.regBlock x := rfl
@[simp] theorem State.withUnread_keyTrap (x : Reg) : (s.withUnread b d stack).keyTrap x = s.keyTrap x := rfl
@[simp] theorem State.withUnread_memRead (a n : Nat) :
    (s.withUnread b d stack).memRead a n = s.memRead a n := rfl
@[simp] theorem State.withUnread_spriteCells (x y : Reg) (n : Nibble) :
    (s.withUnread b d stack).spriteCells x y n = s.spriteCells x y n := rfl

/-- A store makes the same checks and the same write whatever ST, dirty and the stack hold. -/
theorem State.memWrite_withUnread (a : Nat) (ws : List Byte) :
    (s.memWrite a ws = .ok (s.storeBytes a ws) ∧
      (s.withUnread b d stack).memWrite a ws = .ok ((s.storeBytes a ws).withUnread b d stack)) ∨
    ∃ e, s.memWrite a ws = .error e ∧ (s.withUnread b d stack).memWrite a ws = .error e := by
  simp only [State.memWrite, State.withUnread_params]
  cases rangeTrap a ws.length with
  | some e => exact .inr ⟨e, rfl, rfl⟩
  | none =>
    cases reservedTrap s.params.lowWritePolicy a ws.length with
    | some e => exact .inr ⟨e, rfl, rfl⟩
    | none => exact .inl ⟨rfl, rfl⟩

/-- FX1E's flag is written alike whatever ST, dirty and the stack hold. -/
theorem State.setIndexFlag_withUnread (sum : Nat) :
    (s.withUnread b d stack).setIndexFlag sum = (s.setIndexFlag sum).withUnread b d stack := by
  simp only [State.setIndexFlag, State.withUnread_params]
  split
  · rfl
  · split <;> rfl

end

variable {i : Instr} {s t : State} {b : Byte} {d : Bool} {stack : Vector Word 16}

theorem execRet_withUnread (hs : AgreeBelow s.sp.val s.stack stack) (h : execRet s = .next t) :
    AnswersBut (b = s.st) (d = s.dirty) (stack = s.stack) t (execRet (s.withUnread b d stack)) := by
  by_cases hsp : s.sp.val = 0
  · simp only [execRet, State.pop_of_empty _ hsp,
      State.pop_of_empty (s := s.withUnread b d stack) _ hsp] at h ⊢
    cases h
    exact ⟨b, d, stack, rfl, hs, id, id, id⟩
  · have hpos := Nat.pos_of_ne_zero hsp
    simp only [execRet, State.pop_of_pos _ hpos,
      State.pop_of_pos (s := s.withUnread b d stack) _ hpos] at h ⊢
    cases h
    have htop := hs (s.sp.val - 1) (by omega) (by omega)
    refine ⟨b, d, stack, ?_, fun k hk hlt => hs k hk (Nat.lt_of_lt_pred hlt), id, id, id⟩
    simp [State.withUnread, State.setPc, htop]

theorem execCall_withUnread (nnn : Addr12) (hs : AgreeBelow s.sp.val s.stack stack)
    (h : execCall nnn s = .next t) :
    AnswersBut (b = s.st) (d = s.dirty) (stack = s.stack) t (execCall nnn (s.withUnread b d stack)) := by
  by_cases hsp : s.sp.val < 16
  · simp only [execCall, State.push_of_lt _ _ hsp,
      State.push_of_lt (s := s.withUnread b d stack) _ _ hsp] at h ⊢
    cases h
    refine ⟨b, d, stack.set s.sp.val s.pc, rfl, fun k hk hlt => ?_, id, id, fun h => by subst h; rfl⟩
    have hlt : k < s.sp.val + 1 := hlt
    by_cases hk' : s.sp.val = k
    · simp [hk']
    · simpa [Vector.getElem_set_ne _ _ hk'] using hs k hk (by omega)
  · have hfull : s.sp.val = 16 := by omega
    simp only [execCall, State.push_of_full _ _ hfull,
      State.push_of_full (s := s.withUnread b d stack) _ _ hfull] at h ⊢
    cases h
    exact ⟨b, d, stack, rfl, hs, id, id, id⟩

theorem execAddI_withUnread (x : Reg) (hs : AgreeBelow s.sp.val s.stack stack) (h : execAddI x s = .next t) :
    AnswersBut (b = s.st) (d = s.dirty) (stack = s.stack) t (execAddI x (s.withUnread b d stack)) := by
  have ho : execAddI x (s.withUnread b d stack) = .next (t.withUnread b d stack) := by
    cases h
    exact congrArg (fun u : State => Host.Outcome.next u.advance)
      ((s.setI (BitVec.ofNat 16 (indexSum s.I (s.reg x)))).setIndexFlag_withUnread b d stack _)
  cases h
  rcases setIndexFlag_cases (s.setI (BitVec.ofNat 16 (indexSum s.I (s.reg x)))) (indexSum s.I (s.reg x))
    with ⟨c, hf⟩ | hf <;> rw [hf] at ho ⊢ <;> exact ⟨b, d, stack, ho, hs, id, id, id⟩

/-- No instruction reads ST, dirty or a stack entry at or above SP. -/
theorem exec_withUnread (hs : AgreeBelow s.sp.val s.stack stack) (h : exec i s = .next t) :
    AnswersBut (b = s.st) (d = s.dirty) (stack = s.stack) t (exec i (s.withUnread b d stack)) := by
  cases i with
  | ret => exact execRet_withUnread hs h
  | call nnn => exact execCall_withUnread nnn hs h
  | cls => cases h; exact ⟨b, true, stack, rfl, hs, id, fun _ => rfl, id⟩
  | ldStVx x => cases h; exact ⟨s.reg x, d, stack, rfl, hs, fun _ => rfl, id, id⟩
  | addI x => exact execAddI_withUnread x hs h
  | drw x y n =>
    simp only [exec_drw, execDrw, State.withUnread_spriteCells] at h ⊢
    cases hc : s.spriteCells x y n with
    | error e => rw [hc] at h; cases h; exact ⟨b, d, stack, rfl, hs, id, id, id⟩
    | ok cells => rw [hc] at h; cases h; exact ⟨b, true, stack, rfl, hs, id, fun _ => rfl, id⟩
  | skp x | sknp x =>
    simp only [exec_skp, exec_sknp, execSkp, execSknp, State.withUnread_keyTrap] at h ⊢
    cases hc : s.keyTrap x
    all_goals
      simp only [hc] at h ⊢
      cases h
      exact ⟨b, d, stack, rfl, hs, id, id, id⟩
  | ldVxMem x =>
    simp only [exec_ldVxMem, execLdVxMem, State.withUnread_I, State.withUnread_memRead] at h ⊢
    cases hc : s.memRead s.I.toNat (x.val + 1)
    all_goals
      simp only [hc] at h ⊢
      cases h
      exact ⟨b, d, stack, rfl, hs, id, id, id⟩
  | ldB x =>
    simp only [exec_ldB, execLdB, State.withUnread_I, State.withUnread_reg] at h ⊢
    rcases s.memWrite_withUnread b d stack s.I.toNat (decimalDigits (s.reg x)) with ⟨hm, hm'⟩ | ⟨e, hm, hm'⟩
    all_goals
      simp only [hm, hm'] at h ⊢
      cases h
      exact ⟨b, d, stack, rfl, hs, id, id, id⟩
  | ldMemVx x =>
    simp only [exec_ldMemVx, execLdMemVx, State.withUnread_I, State.withUnread_regBlock] at h ⊢
    rcases s.memWrite_withUnread b d stack s.I.toNat (s.regBlock x) with ⟨hm, hm'⟩ | ⟨e, hm, hm'⟩
    all_goals
      simp only [hm, hm'] at h ⊢
      cases h
      exact ⟨b, d, stack, rfl, hs, id, id, id⟩
  | sys _ | jp _ | seImm _ _ | sneImm _ _ | seReg _ _ | sneReg _ _ | ldImm _ _ | addImm _ _ | ldReg _ _
  | orReg _ _ | andReg _ _ | xorReg _ _ | addReg _ _ | sub _ _ | shr _ _ | subn _ _ | shl _ _ | ldI _ | jpV0 _
  | rnd _ _ | ldVxDt _ | ldVxK _ | ldDtVx _ | ldF _ =>
    cases h; exact ⟨b, d, stack, rfl, hs, id, id, id⟩

/-- Settles O52: other values of ST and dirty, the stack as it is. -/
theorem soundTimerAndDirtyAreNeverRead : Obligations.SoundTimerAndDirtyAreNeverRead := by
  intro i s t b d h
  obtain ⟨b', d', stack, ho, -, -, -, hstack⟩ :=
    exec_withUnread (b := b) (d := d) (stack := s.stack) (fun _ _ _ => rfl) h
  exact ⟨b', d', ho.trans (by rw [hstack rfl]; rfl)⟩

/-- Settles O53: another stack, ST and dirty as they are. -/
theorem staleStackEntriesAreInvisible : Obligations.StaleStackEntriesAreInvisible := by
  intro i s t stack' hs h
  obtain ⟨b, d, stack, ho, hagree, hst, hdirty, -⟩ := exec_withUnread (b := s.st) (d := s.dirty) hs h
  exact ⟨stack, ho.trans (by rw [hst rfl, hdirty rfl]; rfl), hagree⟩

end Sys2Proof.Machine
end

section
/-! The port events that run no instruction: O43, O44, O45, O47. -/

namespace Sys2Proof.Machine

variable {s : State} {es : List Event}

/-- A timer loses one at a tick and stays at 0 (R28). -/
theorem toNat_decrement (b : Byte) : (decrement b).toNat = b.toNat - 1 := by
  unfold decrement
  split
  · next h => simp [h]
  · next h => bv_omega

theorem tick_of_run (h : s.runState = .run) : s.tick = s.decay := by simp [State.tick, h]

theorem tick_of_faulted (h : s.runState = .faulted) : s.tick = s := by simp [State.tick, h]

theorem tick_of_frozen (h : s.runState = .awaitKey) (hp : s.params.timersInKeyWait = .frozen) : s.tick = s := by
  simp [State.tick, h, hp]

theorem tick_of_running (h : s.runState = .awaitKey) (hp : s.params.timersInKeyWait = .running) :
    s.tick = s.decay := by simp [State.tick, h, hp]

theorem keyPress_of_awaitKey (h : s.runState = .awaitKey) (k : Key) : s.keyPress k = s.completeWait k := by
  simp [State.keyPress, h]

/-- A key press outside AWAIT_KEY does nothing (R36). -/
theorem keyPress_of_not_awaitKey (h : s.runState ≠ .awaitKey) (k : Key) : s.keyPress k = s := by
  unfold State.keyPress
  cases hr : s.runState with
  | awaitKey => exact absurd hr h
  | run | faulted => rfl

theorem step_of_tick (h : s.inputs = .tick :: es) : step s = .next (s.setInputs es).tick := step_of_cons h

/-- Settles O43: the tick is one decay of both timers. -/
theorem tickDecrementsNonZeroTimers : Obligations.TickDecrementsNonZeroTimers := by
  intro s es hrun h
  refine ⟨(s.setInputs es).decay, ?_, toNat_decrement s.dt, toNat_decrement s.st, rfl⟩
  rw [step_of_tick h, tick_of_run (s := s.setInputs es) hrun]

/-- Settles O44: the four cases of a tick or a key press outside RUN and AWAIT_KEY, each by its own lemma. -/
theorem ticksAndPressesInOtherRunStates : Obligations.TicksAndPressesInOtherRunStates := by
  refine fun s es => ⟨fun h => ⟨fun hf => ?_, fun hw hp => ?_, fun hw hp => ?_⟩, fun k h hw => ?_⟩
  · rw [step_of_tick h, tick_of_faulted (s := s.setInputs es) hf]; rfl
  · rw [step_of_tick h, tick_of_frozen (s := s.setInputs es) hw hp]; rfl
  · refine ⟨(s.setInputs es).decay, ?_, toNat_decrement s.dt, toNat_decrement s.st, rfl⟩
    rw [step_of_tick h, tick_of_running (s := s.setInputs es) hw hp]
  · exact (step_of_cons h).trans (congrArg _ (keyPress_of_not_awaitKey (s := s.setInputs es) hw k))

/-! The state after a reset event reads as R41 says. -/

@[simp] theorem State.reg_resetEvent (s : State) (x : Reg) : s.resetEvent.reg x = 0 :=
  Vector.getElem_replicate x.isLt

@[simp] theorem State.stack_resetEvent (s : State) (k : Nat) (h : k < 16) : s.resetEvent.stack[k] = 0 :=
  Vector.getElem_replicate h

@[simp] theorem State.pixel_resetEvent (s : State) (u v : Nat) : s.resetEvent.pixel u v = false := by
  by_cases hv : v < 32 <;> simp [State.pixel, Display.cell, State.resetEvent, State.reset, hv]

@[simp] theorem State.readByte_resetEvent (s : State) (a : Nat) :
    s.resetEvent.readByte a = resetByte s.params.font a := rfl

/-- Settles O45: the event answers `State.resetEvent`, read field by field. -/
theorem resetEventGivesTheResetValues : Obligations.ResetEventGivesTheResetValues := by
  intro s es h
  refine ⟨(s.setInputs es).resetEvent, step_of_cons h, State.reg_resetEvent _, rfl, rfl, State.stack_resetEvent _, rfl,
    fun a ha => ?_, fun a ha => ?_, fun u v _ _ => State.pixel_resetEvent _ u v, ?_⟩
  · exact (State.readByte_resetEvent _ a).trans (dif_pos ha)
  · exact (State.readByte_resetEvent _ a).trans (dif_neg (Nat.not_lt.mpr ha))
  · exact ⟨rfl, rfl, rfl, rfl, rfl, rfl, rfl, rfl, rfl, rfl, rfl, rfl, rfl, rfl, rfl, rfl⟩

/-- Settles O47: handling the event is that one write, in every run state. -/
theorem presentAckClearsDirty : Obligations.PresentAckClearsDirty := fun _ _ h => step_of_cons h

end Sys2Proof.Machine
end

section
/-! The word that decodes to FX0A, which the waiting core finds at pc (R283). -/

namespace Sys2Proof

/-- Within family F the low byte 0A selects FX0A, and X is its register (R99). -/
theorem fields_of_decodeMisc_ldVxK {w : Word} {x : Reg} (h : decodeMisc w = some (.ldVxK x)) :
    fieldX w = x ∧ fieldNN w = 0x0A#8 := by
  unfold decodeMisc at h
  split at h <;> cases h
  next hnn => exact ⟨rfl, hnn⟩

/-- Only family F holds FX0A (R96). -/
theorem fieldT_of_decode_ldVxK {w : Word} {x : Reg} (h : decode w = some (.ldVxK x)) :
    fieldT w = 0xF#4 ∧ decodeMisc w = some (.ldVxK x) := by
  unfold decode at h
  split at h
  -- families 0, 5 and 9, 8, E, F in the order of `decode`; the others name their one instruction
  case h_1 => unfold decodeSys at h; split at h; cases h; split at h <;> cases h
  case h_6 | h_10 => unfold decodeRegSkip at h; split at h <;> cases h
  case h_9 => unfold decodeAlu at h; simp only at h; split at h <;> cases h
  case h_15 => unfold decodeKey at h; split at h <;> cases h
  case h_16 =>
    have hcases := nibble_cases (fieldT w)
    simp_all
  all_goals cases h

/-- A word that decodes to FX0A is the encoding of it (R99). -/
theorem encode_of_decode_ldVxK {w : Word} {x : Reg} (h : decode w = some (.ldVxK x)) :
    encode (.ldVxK x) = w := by
  obtain ⟨ht, hm⟩ := fieldT_of_decode_ldVxK h
  obtain ⟨hx, hnn⟩ := fields_of_decodeMisc_ldVxK hm
  rw [← wordRegImm_fields w, ht, hx, hnn]
  rfl

end Sys2Proof
end

section
/-! The invariant, kept by each instruction and each event: O58, O59. -/

namespace Sys2Proof.Machine

variable {i : Instr} {s t : State} {e : Trap} {w : Word}

/-- The invariant says nothing of the registers, I, SP, the timers, the display, dirty, the ports, the events and
the counts. -/
theorem State.Inv.withOthers (h : s.Inv) (v : Vector Byte 16) (a : Word) (sp : Fin 17) (dt st : Byte) (fb : Display)
    (d : Bool) (keys : Option (BitVec 16)) (rnd : Option Byte) (presents errors : Nat) (es : List Event)
    (draws : Nat) :
    State.Inv { s with
      v := v, I := a, sp := sp, dt := dt, st := st, fb := fb, dirty := d, keysHeld := keys, rnd := rnd,
      forcePresents := presents, loadErrors := errors, inputs := es, draws := draws } :=
  ⟨h.memCanonical, h.pcBound, h.stackBound, h.causeLatched, h.noFault, h.faultedPc, h.waitPending,
    h.runBeforeStart, h.lowIntact⟩

/-- In RUN pc and the stack may take any values within their bounds. -/
theorem State.Inv.withPcStack (h : s.Inv) (hrun : s.runState = .run) {a : Word} {stack : Vector Word 16}
    (ha : a.toNat ≤ 0x10FE) (hstack : ∀ (k : Nat) (hk : k < 16), stack[k].toNat ≤ 0xFFE) :
    State.Inv { s with pc := a, stack := stack } where
  memCanonical := h.memCanonical
  pcBound := ha
  stackBound := hstack
  causeLatched := h.causeLatched
  noFault := h.noFault
  faultedPc hf := absurd (hrun.symm.trans hf) (by decide)
  waitPending hw := absurd (hrun.symm.trans hw) (by decide)
  runBeforeStart := h.runBeforeStart
  lowIntact := h.lowIntact

theorem State.Inv.setPc (h : s.Inv) (hrun : s.runState = .run) {a : Word} (ha : a.toNat ≤ 0x10FE) :
    (s.setPc a).Inv := h.withPcStack hrun ha h.stackBound

theorem State.Inv.setInputs (h : s.Inv) (es : List Event) : (s.setInputs es).Inv := h.withOthers ..

theorem State.Inv.decay (h : s.Inv) : s.decay.Inv := h.withOthers ..

/-- The state after a reset event has the invariant, whatever the state before it. -/
theorem inv_resetEvent (s : State) : s.resetEvent.Inv where
  memCanonical := rfl
  pcBound := (by decide : (0x200#16).toNat ≤ 0x10FE)
  stackBound k hk := by simp
  causeLatched := ⟨fun _ => nofun, fun _ => rfl⟩
  noFault _ := ⟨rfl, rfl⟩
  faultedPc := nofun
  waitPending := nofun
  runBeforeStart _ := rfl
  lowIntact _ _ _ := rfl

/-- Fault entry after the first step keeps the invariant (R322). -/
theorem State.Inv.raise (h : s.Inv) (hs : s.started = true) (he : e.cause ≠ .none) : (s.raise e).Inv where
  memCanonical := h.memCanonical
  pcBound := h.pcBound
  stackBound := h.stackBound
  causeLatched := ⟨fun hc => absurd hc he, fun hr => absurd rfl hr⟩
  noFault hr := absurd rfl hr
  faultedPc _ := rfl
  waitPending := nofun
  runBeforeStart hf := absurd (hs.symm.trans hf) (by decide)
  lowIntact := h.lowIntact

/-- A store inside memory in RUN, outside the reserved area where it is protected, keeps the invariant (R66,
R67). -/
theorem State.Inv.storeBytes (h : s.Inv) (hrun : s.runState = .run) {a : Nat} {ws : List Byte}
    (hin : a + ws.length ≤ Config.memSize) (hlow : s.params.lowWritePolicy = .perform ∨ Config.progBase ≤ a) :
    (s.storeBytes a ws).Inv where
  memCanonical := State.wf_storeBytes h.memCanonical hin
  pcBound := h.pcBound
  stackBound := h.stackBound
  causeLatched := h.causeLatched
  noFault := h.noFault
  faultedPc := h.faultedPc
  waitPending hw := absurd (hrun.symm.trans hw) (by decide)
  runBeforeStart := h.runBeforeStart
  lowIntact hp b hb := by
    have ha : Config.progBase ≤ a := hlow.resolve_left fun hperf => by rw [storeBytes_params, hperf] at hp; cases hp
    rw [State.readByte_storeBytes h.memCanonical hin, if_neg (by omega)]
    exact h.lowIntact hp b hb

theorem State.Inv.setStarted (h : s.Inv) : s.setStarted.Inv :=
  ⟨h.memCanonical, h.pcBound, h.stackBound, h.causeLatched, h.noFault, h.faultedPc, h.waitPending, nofun,
    h.lowIntact⟩

/-- FX0A entered at its own word keeps the invariant (R283). -/
theorem State.Inv.awaitKey (h : s.Inv) (hrun : s.runState = .run) (hs : s.started = true) {x : Reg}
    (hw : s.memRead16 s.pc.toNat = .ok (encode (.ldVxK x))) : (s.awaitKey x).Inv := by
  have hne : s.runState ≠ .faulted := by rw [hrun]; decide
  exact {
    memCanonical := h.memCanonical
    pcBound := h.pcBound
    stackBound := h.stackBound
    causeLatched := ⟨fun _ => nofun, fun _ => h.causeLatched.mpr hne⟩
    noFault := fun _ => h.noFault hne
    faultedPc := nofun
    waitPending := fun _ => hw
    runBeforeStart := fun hf => absurd (hs.symm.trans hf) (by decide)
    lowIntact := h.lowIntact }

/-- The key press that completes FX0A keeps the invariant (R284). -/
theorem State.Inv.completeWait (h : s.Inv) (hw : s.runState = .awaitKey) (k : Key) : (s.completeWait k).Inv := by
  have hne : s.runState ≠ .faulted := by rw [hw]; decide
  have hpc : s.pc.toNat + 2 ≤ 0x1000 := (State.memRead16_ok.mp (h.waitPending hw)).1
  exact {
    memCanonical := h.memCanonical
    pcBound := by
      change (s.pc + 2).toNat ≤ 0x10FE
      bv_omega
    stackBound := h.stackBound
    causeLatched := ⟨fun _ => nofun, fun _ => h.causeLatched.mpr hne⟩
    noFault := fun _ => h.noFault hne
    faultedPc := nofun
    waitPending := nofun
    runBeforeStart := fun _ => rfl
    lowIntact := h.lowIntact }

/-- An instruction fetched in RUN keeps the invariant when it completes. -/
theorem Completes.inv (hc : Completes i s t) (h : s.Inv) (hrun : s.runState = .run) (hs : s.started = true)
    (hw : s.memRead16 s.pc.toNat = .ok w) (hd : decode w = some i) : t.Inv := by
  have hpc : s.pc.toNat + 2 ≤ 0x1000 := (State.memRead16_ok.mp hw).1
  have hnext : (s.pc + 2).toNat ≤ 0x10FE := by bv_omega
  cases hc with
  | registers v rnd draws c _ =>
    have ha : (s.pc + if c then 4 else 2).toNat ≤ 0x10FE := by cases c <;> simp <;> omega
    exact (h.setPc hrun ha).withOthers ..
  | jump a ha => exact h.setPc hrun ha
  | index | display | delayTimer | soundTimer => exact (h.setPc hrun hnext).withOthers ..
  | ret k hk =>
    have hk := h.stackBound k hk
    have ha : (s.stack[k] + 2).toNat ≤ 0x10FE := by bv_omega
    exact (h.setPc hrun ha).withOthers ..
  | call a hsp =>
    have hstack (k : Nat) (hk : k < 16) : (s.stack.set s.sp.val s.pc)[k].toNat ≤ 0xFFE := by
      rw [Vector.getElem_set]
      split
      · omega
      · exact h.stackBound k hk
    exact (h.withPcStack hrun ((toNat_zext16_le a).trans (by decide)) hstack).withOthers ..
  | wait x hi =>
    subst hi
    exact h.awaitKey hrun hs (encode_of_decode_ldVxK hd ▸ hw)
  | store ws _ hin hlow => exact (h.storeBytes hrun hin hlow).setPc hrun hnext

theorem State.Inv.runCycle (h : s.Inv) (hrun : s.runState = .run) (hs : s.started = true)
    (ht : s.runCycle = .next t) : t.Inv := by
  obtain ⟨-, hr⟩ | ⟨w, -, -, hr⟩ | ⟨w, i, hw, hd, hr⟩ := runCycle_cases s <;> rw [hr] at ht
  · cases ht; exact h.raise hs (by simp)
  · cases ht; exact h.raise hs (by simp [illegalTrap])
  · obtain ⟨e, he, rfl⟩ | hc := exec_next_cases ht
    · exact h.raise hs (ne_none_of_mem_mayRaise he)
    · exact hc.inv h hrun hs hw hd

theorem State.Inv.stepEvent (h : s.Inv) (ht : s.stepEvent = .next t) : t.Inv := by
  by_cases hrun : s.runState = .run
  · exact h.setStarted.runCycle hrun rfl ((stepEvent_of_run hrun).symm.trans ht)
  · rw [stepEvent_of_not_run hrun] at ht
    cases ht; exact h

theorem State.Inv.loadEvent (h : s.Inv) {rom : List Byte} (ht : s.loadEvent rom = .next t) : t.Inv := by
  obtain ⟨-, hl⟩ | ⟨hs, hfit, hl⟩ | ⟨-, -, hl⟩ := loadEvent_cases s rom <;> rw [hl] at ht <;> cases ht
  · exact h.storeBytes (h.runBeforeStart hs) (Nat.add_le_add_left hfit _) (.inr le_rfl)
  · exact h.withOthers ..

theorem State.Inv.tick (h : s.Inv) : s.tick.Inv := by
  cases hr : s.runState with
  | run => rw [tick_of_run hr]; exact h.decay
  | faulted => rwa [tick_of_faulted hr]
  | awaitKey =>
    cases hp : s.params.timersInKeyWait with
    | frozen => rwa [tick_of_frozen hr hp]
    | running => rw [tick_of_running hr hp]; exact h.decay

theorem State.Inv.keyPress (h : s.Inv) (k : Key) : (s.keyPress k).Inv := by
  by_cases hw : s.runState = .awaitKey
  · rw [keyPress_of_awaitKey hw]; exact h.completeWait hw k
  · rwa [keyPress_of_not_awaitKey hw]

/-- Every port event keeps the invariant. -/
theorem State.Inv.handle (h : s.Inv) {ev : Event} (ht : s.handle ev = .next t) : t.Inv := by
  cases ev with
  | reset => cases ht; exact inv_resetEvent s
  | load rom => exact h.loadEvent ht
  | step => exact h.stepEvent ht
  | tick => cases ht; exact h.tick
  | keyPress k => cases ht; exact h.keyPress k
  | keysHeld | rnd | presentAck => cases ht; exact h.withOthers ..

/-- Settles O58: the event is the first listed one or a step, and each event keeps the invariant. -/
theorem everyStepKeepsTheInvariant : Obligations.EveryStepKeepsTheInvariant := by
  intro s t h ht
  cases hes : s.inputs with
  | nil => exact h.stepEvent ((step_of_nil hes).symm.trans ht)
  | cons e es => exact (h.setInputs es).handle ((step_of_cons hes).symm.trans ht)

/-- Settles O59: reset is the state after a reset event in it. -/
theorem resetHasTheInvariant : Obligations.ResetHasTheInvariant := inv_resetEvent State.reset

end Sys2Proof.Machine
end

section
/-! The stores of FX33 and FX55: where they fault (O34), and what bytes they leave (O50). -/

namespace Sys2Proof.Machine

variable {i : Instr} {s : State} {a n : Nat} {ws : List Byte}

/-- A range that runs past the end of memory raises AddressFault (R66). -/
theorem rangeTrap_of_past_end (hn : 0 < n) (h : Config.memSize < a + n) :
    rangeTrap a n = some ⟨.addressFault, BitVec.ofNat 17 (max a Config.memSize)⟩ := if_pos ⟨hn, h⟩

/-- A write from below the program space raises ReservedWriteFault where that area is protected (R67). -/
theorem reservedTrap_of_low (hn : 0 < n) (h : a < Config.progBase) :
    reservedTrap .fault a n = some ⟨.reservedWriteFault, BitVec.ofNat 17 a⟩ := if_pos ⟨hn, h⟩

/-- The range check comes first: past the end the policy on low writes does not matter (R66, R68). -/
theorem State.memWrite_of_past_end (hn : 0 < ws.length) (h : Config.memSize < a + ws.length) :
    s.memWrite a ws = .error ⟨.addressFault, BitVec.ofNat 17 (max a Config.memSize)⟩ := by
  rw [State.memWrite, rangeTrap_of_past_end hn h]

/-- A write inside memory is refused in the protected area (R67). -/
theorem State.memWrite_of_low (hn : 0 < ws.length) (hin : a + ws.length ≤ Config.memSize)
    (hp : s.params.lowWritePolicy = .fault) (h : a < Config.progBase) :
    s.memWrite a ws = .error ⟨.reservedWriteFault, BitVec.ofNat 17 a⟩ := by
  rw [State.memWrite, rangeTrap_eq_none.mpr (.inr hin), hp, reservedTrap_of_low hn h]

/-- A storing instruction makes one write of its bytes at I, and enters FAULTED with what that write raises
(R294, R296). -/
theorem exec_raises_of_memWrite_error (hi : 0 < storedBytes i) (s : State) :
    ∃ ws : List Byte, ws.length = storedBytes i ∧
      ∀ e, s.memWrite s.I.toNat ws = .error e → exec i s = .next (s.raise e) := by
  cases i with
  | ldB x => exact ⟨decimalDigits (s.reg x), rfl, fun e he => by rw [exec_ldB, execLdB, he]⟩
  | ldMemVx x => exact ⟨s.regBlock x, s.length_regBlock x, fun e he => by rw [exec_ldMemVx, execLdMemVx, he]⟩
  | _ => cases hi

/-- Settles O34: the instruction's one write is refused by the range check, or past it by the reserved-area check. -/
theorem forbiddenStoresFault : Obligations.ForbiddenStoresFault := by
  intro s i hi
  obtain ⟨ws, hlen, hraise⟩ := exec_raises_of_memWrite_error hi s
  rw [← hlen] at hi ⊢
  refine ⟨fun hpast => hraise _ (State.memWrite_of_past_end hi hpast), fun hin hp hlow => ?_⟩
  rw [hraise _ (State.memWrite_of_low hi hin hp hlow), BitVec.ofNat_toNat]
  rfl

/-- Settles O50: a fault entry and every completion but a store keep memory, and a store changes its own bytes. -/
theorem memoryChangesOnlyInTheStoredBytes : Obligations.MemoryChangesOnlyInTheStoredBytes := by
  intro i s t hwf h
  obtain ⟨e, -, rfl⟩ | hc := exec_next_cases h
  · exact ⟨fun _ _ => rfl, fun _ => rfl⟩
  · cases hc with
    | registers | jump | index | display | delayTimer | soundTimer | ret | call | wait =>
      exact ⟨fun _ _ => rfl, fun _ => rfl⟩
    | store ws hlen hin _ =>
      rw [hlen]
      refine ⟨fun a ha => ?_, fun h0 => ?_⟩
      · rw [State.advance_readByte, State.readByte_storeBytes hwf hin, if_neg (by omega)]
      · rw [List.length_eq_zero_iff.mp h0]
        rfl

end Sys2Proof.Machine
end

section
/-! Decoder and encoder as two readings of one table (R102, R104): O54 to O57. -/

namespace Sys2Proof

variable {i : Instr} {w : Word} {t n : Nibble} {nn : Byte}

/-! ### From an instruction to its word and back -/

/-- Family 0 by its NNN: 00E0 and 00EE, and every other word is SYS (R97). -/
theorem decodeSys_wordAddr (nnn : Addr12) :
    decodeSys (wordAddr 0x0#4 nnn) =
      if nnn = 0x0E0#12 then .cls else if nnn = 0x0EE#12 then .ret else .sys nnn := by
  have hword : ∀ a, wordAddr 0x0#4 nnn = wordAddr 0x0#4 a ↔ nnn = a := fun a =>
    (wordAddr_inj _ _).trans (and_iff_right rfl)
  have hcls : wordAddr 0x0#4 nnn = 0x00E0#16 ↔ nnn = 0x0E0#12 := hword 0x0E0#12
  have hret : wordAddr 0x0#4 nnn = 0x00EE#16 ↔ nnn = 0x0EE#12 := hword 0x0EE#12
  simp only [decodeSys, hcls, hret, fieldNNN_wordAddr]

/-- A well-formed SYS is neither CLS nor RET (R97). -/
theorem wf_sys {nnn : Addr12} : (Instr.sys nnn).wf = true ↔ nnn ≠ 0x0E0#12 ∧ nnn ≠ 0x0EE#12 := by
  simp [Instr.wf]

/-- The decoder reads the fields that the encoder wrote (R93, R96). -/
theorem decode_encode (h : i.wf = true) : decode (encode i) = some i := by
  cases i with
  | cls | ret => rfl
  | sys nnn => simp [encode, decode, decodeSys_wordAddr, wf_sys.mp h]
  | seReg | sneReg => simp [encode, decode, decodeRegSkip]
  | ldReg | orReg | andReg | xorReg | addReg | sub | shr | subn | shl => simp [encode, decode, decodeAlu]
  | skp | sknp => simp [encode, decode, decodeKey]
  | ldVxDt | ldVxK | ldDtVx | ldStVx | addI | ldF | ldB | ldMemVx | ldVxMem => simp [encode, decode, decodeMisc]
  | jp | call | seImm | sneImm | ldImm | addImm | ldI | jpV0 | rnd | drw => simp [encode, decode]

/-- A word stored as its two bytes is decoded as the word (R69). -/
theorem decodeBytes_bytesOfWord (h : decode w = some i) (rest : List Byte) :
    decodeBytes (bytesOfWord w ++ rest) = .ok (i, rest) := by
  simp [bytesOfWord, decodeBytes, wordOfBytes_bytes, h]

/-- Settles O55: the word by the fields read back, the bytes by the word they make. -/
theorem decodeOfEncodeIsTheInstruction : Obligations.DecodeOfEncodeIsTheInstruction :=
  fun _ h => ⟨decode_encode h, decodeBytes_bytesOfWord (decode_encode h)⟩

/-! ### From a word to its instruction and back: each family's decoder drops no bit -/

theorem wordAddr_of_fields (ht : fieldT w = t) : wordAddr t (fieldNNN w) = w := by
  rw [← ht, wordAddr_fields]

theorem wordRegImm_of_fields (ht : fieldT w = t) (hn : fieldNN w = nn) : wordRegImm t (fieldX w) nn = w := by
  rw [← ht, ← hn, wordRegImm_fields]

theorem wordRegReg_of_fields (ht : fieldT w = t) (hn : fieldN w = n) :
    wordRegReg t (fieldX w) (fieldY w) n = w := by
  rw [← ht, ← hn, wordRegReg_fields]

/-- Family 0: the two fixed words are their own encodings, and SYS is decoded from no other than its own (R97). -/
theorem encode_decodeSys (ht : fieldT w = 0x0#4) : (decodeSys w).wf = true ∧ encode (decodeSys w) = w := by
  obtain ⟨nnn, rfl⟩ : ∃ nnn, w = wordAddr 0x0#4 nnn := ⟨_, (wordAddr_of_fields ht).symm⟩
  rw [decodeSys_wordAddr]
  split_ifs with hcls hret
  · exact ⟨rfl, hcls ▸ rfl⟩
  · exact ⟨rfl, hret ▸ rfl⟩
  · exact ⟨wf_sys.mpr ⟨hcls, hret⟩, rfl⟩

/-- Family 8 (R98). -/
theorem encode_of_decodeAlu (ht : fieldT w = 0x8#4) (h : decodeAlu w = some i) : i.wf = true ∧ encode i = w := by
  unfold decodeAlu at h
  dsimp only at h
  split at h <;> cases h
  all_goals next hn => exact ⟨rfl, wordRegReg_of_fields ht hn⟩

/-- Family E (R100). -/
theorem encode_of_decodeKey (ht : fieldT w = 0xE#4) (h : decodeKey w = some i) : i.wf = true ∧ encode i = w := by
  unfold decodeKey at h
  split at h <;> cases h
  all_goals next hn => exact ⟨rfl, wordRegImm_of_fields ht hn⟩

/-- Family F (R99). -/
theorem encode_of_decodeMisc (ht : fieldT w = 0xF#4) (h : decodeMisc w = some i) : i.wf = true ∧ encode i = w := by
  unfold decodeMisc at h
  dsimp only at h
  split at h <;> cases h
  all_goals next hn => exact ⟨rfl, wordRegImm_of_fields ht hn⟩

/-- Families 5 and 9 (R101). -/
theorem decodeRegSkip_eq_some {f : Reg → Reg → Instr} :
    decodeRegSkip w f = some i ↔ fieldN w = 0x0#4 ∧ f (fieldX w) (fieldY w) = i := by
  simp [decodeRegSkip]

/-- The top nibble picks the family (R96); within it every bit is a field of the instruction or fixed. -/
theorem encode_of_decode (h : decode w = some i) : i.wf = true ∧ encode i = w := by
  unfold decode at h
  split at h
  -- the families with a decoder of their own: 0, 5 and 9, 8, E, F
  case h_1 ht => cases h; exact encode_decodeSys ht
  case h_6 ht | h_10 ht =>
    obtain ⟨hn, rfl⟩ := decodeRegSkip_eq_some.mp h
    exact ⟨rfl, wordRegReg_of_fields ht hn⟩
  case h_9 ht => exact encode_of_decodeAlu ht h
  case h_15 ht => exact encode_of_decodeKey ht h
  case h_16 =>
    have hcases := nibble_cases (fieldT w)
    exact encode_of_decodeMisc (by simp_all) h
  -- the families of one instruction, by format: ADDR, REG_IMM, DRAW
  case h_2 ht | h_3 ht | h_11 ht | h_12 ht => cases h; exact ⟨rfl, wordAddr_of_fields ht⟩
  case h_4 ht | h_5 ht | h_7 ht | h_8 ht | h_13 ht => cases h; exact ⟨rfl, wordRegImm_of_fields ht rfl⟩
  case h_14 ht => cases h; exact ⟨rfl, wordRegReg_of_fields ht rfl⟩

/-- Settles O56: family by family. -/
theorem encodeOfDecodeIsTheWord : Obligations.EncodeOfDecodeIsTheWord := fun _ _ => encode_of_decode

/-! ### The words that decode to nothing -/

/-- Families 5 and 9 leave out the words whose N is not 0 (R101). -/
theorem decodeRegSkip_eq_none {f : Reg → Reg → Instr} : decodeRegSkip w f = none ↔ fieldN w ≠ 0x0#4 := by
  simp [decodeRegSkip]

/-- Family 8 leaves out seven values of N (R98). -/
theorem decodeAlu_eq_none :
    decodeAlu w = none ↔ fieldN w ∈ [0x8#4, 0x9#4, 0xA#4, 0xB#4, 0xC#4, 0xD#4, 0xF#4] := by
  rcases nibble_cases (fieldN w) with
    hn | hn | hn | hn | hn | hn | hn | hn | hn | hn | hn | hn | hn | hn | hn | hn <;> simp [decodeAlu, hn]

/-- Family E has two low bytes (R100). -/
theorem decodeKey_eq_none : decodeKey w = none ↔ fieldNN w ∉ [0x9E#8, 0xA1#8] := by
  unfold decodeKey
  split <;> simp_all

/-- Family F has nine low bytes (R99). -/
theorem decodeMisc_eq_none :
    decodeMisc w = none ↔
      fieldNN w ∉ [0x07#8, 0x0A#8, 0x15#8, 0x18#8, 0x1E#8, 0x29#8, 0x33#8, 0x55#8, 0x65#8] := by
  unfold decodeMisc
  dsimp only
  split <;> simp_all

/-- Settles O57: only families 5, 8, 9, E and F leave words out, and each leaves out those of its `_eq_none` lemma. -/
theorem decoderRejectsExactlyTheIllegalWords : Obligations.DecoderRejectsExactlyTheIllegalWords := by
  intro w
  rcases nibble_cases (fieldT w) with
    ht | ht | ht | ht | ht | ht | ht | ht | ht | ht | ht | ht | ht | ht | ht | ht <;>
    simp [decode, Machine.illegalWord, ht, decodeRegSkip_eq_none, decodeAlu_eq_none, decodeKey_eq_none,
      decodeMisc_eq_none]

/-- Settles O54: two field readings and eighteen fixed words, each evaluated. -/
theorem sampleWordsDecode : Obligations.SampleWordsDecode := by
  unfold Obligations.SampleWordsDecode
  decide

end Sys2Proof
end

section
/-! Every instruction: completion (O38), precise faults (O37) and the pc update (O51); the return that matches a
call (O6). -/

namespace Sys2Proof.Machine

variable {i : Instr} {s t : State}

/-- No instruction is refused or stops the model (R129). -/
theorem exec_answers (i : Instr) (s : State) : ∃ t, exec i s = .next t := by
  obtain ⟨e, -, h⟩ | ⟨t, -, h⟩ := exec_cases i s
  · exact ⟨s.raise e, h⟩
  · exact ⟨t, h⟩

/-- Settles O38: a fault entry and a completion both answer a next state. -/
theorem everyInstructionAnswersANextState : Obligations.EveryInstructionAnswersANextState := exec_answers

/-- A completion does not enter FAULTED: run_state stays, but for the wait of FX0A. -/
theorem Completes.runState_eq (hc : Completes i s t) : t.runState = s.runState ∨ t.runState = .awaitKey := by
  cases hc with
  | wait => exact .inr rfl
  | registers | jump | index | display | delayTimer | soundTimer | ret | call | store => exact .inl rfl

/-- Settles O37: outside FAULTED only a fault entry answers a FAULTED state, and it latches and changes nothing
else. -/
theorem faultsArePrecise : Obligations.FaultsArePrecise := by
  intro i s t hs h ht
  obtain ⟨e, he, rfl⟩ | hc := exec_next_cases h
  · exact ⟨he, rfl⟩
  · obtain hr | hr := hc.runState_eq
    · exact absurd (hr.symm.trans ht) hs
    · exact absurd (hr.symm.trans ht) (by decide)

/-- The pc that R124 and R125 give after an instruction that completes, by its case: redirect, return, wait, skip,
normal advance. -/
def PcAfter (s : State) (pc : Word) : Instr → Prop
  | .jp a | .call a => pc = zext16 a
  | .jpV0 a => pc = zext16 a + (s.reg 0).setWidth 16
  | .ret => ∃ (k : Nat) (h : k < 16), s.sp.val = k + 1 ∧ pc = s.stack[k] + 2
  | .ldVxK _ => pc = s.pc
  | .seImm _ _ | .sneImm _ _ | .seReg _ _ | .sneReg _ _ | .skp _ | .sknp _ => pc = s.pc + 2 ∨ pc = s.pc + 4
  | _ => pc = s.pc + 2

/-- A skip goes on by 2 or by 4 (R164). -/
theorem State.pc_skipIf (s : State) (c : Bool) : (s.skipIf c).pc = s.pc + 2 ∨ (s.skipIf c).pc = s.pc + 4 := by
  cases c
  · exact .inl rfl
  · exact .inr rfl

/-- Every instruction either enters FAULTED or updates pc by its case. -/
theorem exec_pcAfter (i : Instr) (s : State) :
    (∃ e : Trap, exec i s = .next (s.raise e)) ∨ ∃ t, exec i s = .next t ∧ PcAfter s t.pc i := by
  cases i with
  | ret =>
    obtain ⟨k, hk, hsp, h⟩ | ⟨-, h⟩ := execRet_cases s
    · exact .inr ⟨_, h, k, hk, hsp, rfl⟩
    · exact .inl ⟨_, h⟩
  | call a => exact (execCall_cases a s).symm.imp (fun ⟨_, h⟩ => ⟨_, h⟩) fun ⟨_, h⟩ => ⟨_, h, rfl⟩
  | drw x y n => exact (execDrw_cases x y n s).symm.imp (fun ⟨e, _, h⟩ => ⟨e, h⟩) fun ⟨_, _, h⟩ => ⟨_, h, rfl⟩
  | ldB x => exact (execLdB_cases x s).symm.imp (fun ⟨e, _, h⟩ => ⟨e, h⟩) fun ⟨_, _, h⟩ => ⟨_, h, rfl⟩
  | ldMemVx x => exact (execLdMemVx_cases x s).symm.imp (fun ⟨e, _, h⟩ => ⟨e, h⟩) fun ⟨_, _, h⟩ => ⟨_, h, rfl⟩
  | ldVxMem x => exact (execLdVxMem_cases x s).symm.imp (fun ⟨e, _, h⟩ => ⟨e, h⟩) fun ⟨_, h⟩ => ⟨_, h, rfl⟩
  | skp x => exact (execSkp_cases x s).symm.imp (fun ⟨_, h⟩ => ⟨_, h⟩) fun ⟨_, h⟩ => ⟨_, h, State.pc_skipIf _ _⟩
  | sknp x => exact (execSknp_cases x s).symm.imp (fun ⟨_, h⟩ => ⟨_, h⟩) fun ⟨_, h⟩ => ⟨_, h, State.pc_skipIf _ _⟩
  | seImm | sneImm | seReg | sneReg => exact .inr ⟨_, rfl, State.pc_skipIf s _⟩
  | addI x =>
    refine .inr ⟨_, rfl, ?_⟩
    obtain ⟨c, h⟩ | h :=
      setIndexFlag_cases (s.setI (BitVec.ofNat 16 (indexSum s.I (s.reg x)))) (indexSum s.I (s.reg x))
    all_goals rw [h]; rfl
  | cls | sys | jp | jpV0 | ldImm | addImm | ldReg | orReg | andReg | xorReg | addReg | sub | shr | subn | shl | ldI
  | rnd | ldVxDt | ldVxK | ldDtVx | ldStVx | ldF => exact .inr ⟨_, rfl, rfl⟩

/-- What a next state that exec answers without entering FAULTED has in pc. -/
theorem pcAfter_of_exec (h : exec i s = .next t) (hf : t.runState ≠ .faulted) : PcAfter s t.pc i := by
  obtain ⟨e, h'⟩ | ⟨t', h', hpc⟩ := exec_pcAfter i s
  · cases h.symm.trans h'; exact absurd rfl hf
  · cases h.symm.trans h'; exact hpc

/-- Settles O51: the clauses are the cases of `PcAfter`. -/
theorem programCounterFollowsTheFiveCases : Obligations.ProgramCounterFollowsTheFiveCases := by
  intro i s t _ h hf
  have hpc := pcAfter_of_exec h hf
  refine ⟨?_, ?_, ?_, ?_, ?_, ?_⟩
  · rintro a (rfl | rfl) <;> exact hpc
  · rintro a rfl; exact hpc
  · rintro rfl; exact hpc
  · rintro x rfl; exact hpc
  · rintro x y nn (rfl | rfl | rfl | rfl | rfl | rfl) <;> exact hpc
  · intro hjump hret hwait hskip
    cases i with
    | jp a | call a | jpV0 a => simp at hjump
    | ret => exact absurd rfl hret
    | ldVxK x => exact absurd rfl (hwait x)
    | seImm | sneImm | seReg | sneReg | skp | sknp => simp at hskip
    | _ => exact hpc

/-- A call leaves its own address on top of the stack (R125, R144). -/
theorem execCall_top (nnn : Addr12) (h : s.sp.val < 16) : ∃ t, execCall nnn s = .next t ∧
    t.sp.val = s.sp.val + 1 ∧ t.stack[s.sp.val] = s.pc := by
  obtain ⟨_, h'⟩ | ⟨hfull, -⟩ := execCall_cases nnn s
  · exact ⟨_, h', rfl, Vector.getElem_set_self h⟩
  · omega

/-- A return goes on 2 past the entry on top of the stack and uncovers the one below (R125, R141). -/
theorem execRet_of_top {n : Fin 17} {a : Word} (hn : n.val < 16) (hsp : s.sp.val = n.val + 1)
    (htop : s.stack[n.val] = a) : execRet s = .next { s with sp := n, pc := a + 2 } := by
  obtain ⟨k, hk, hk', h'⟩ | ⟨h0, -⟩ := execRet_cases s
  · obtain rfl : k = n.val := by omega
    rw [h', htop]
  · omega

/-- Settles O6: the entry that the call pushed is the one that the return pops. -/
theorem returnResumesAfterTheCall : Obligations.ReturnResumesAfterTheCall := by
  intro nnn s hs
  obtain ⟨t, h, hsp, htop⟩ := execCall_top nnn hs
  refine ⟨t, h, fun t' hstack hsp' => ⟨_, execRet_of_top hs ?_ ?_, rfl, rfl, rfl⟩⟩
  · rw [hsp', hsp]
  · simpa only [hstack] using htop

end Sys2Proof.Machine
end

section
/-! One step: when it is refused (O60), and the three ways the cycle of a step in RUN goes (O39, O40, O42). -/

namespace Sys2Proof.Machine

variable {s : State} {i : Instr} {es : List Event}

/-- A cycle answers a next state (R129). -/
theorem runCycle_answers (s : State) : ∃ t, s.runCycle = .next t := by
  obtain ⟨-, h⟩ | ⟨w, -, -, h⟩ | ⟨w, i, -, -, h⟩ := runCycle_cases s
  · exact ⟨_, h⟩
  · exact ⟨_, h⟩
  · exact h ▸ exec_answers i s

theorem stepEvent_answers (s : State) : ∃ t, s.stepEvent = .next t := by
  by_cases hrun : s.runState = .run
  · exact stepEvent_of_run hrun ▸ runCycle_answers s.setStarted
  · exact ⟨s, stepEvent_of_not_run hrun⟩

/-- Only a load is ever refused, and only after the first step (R364). -/
theorem handle_answers (s : State) {ev : Event} (hl : ∀ rom, ev = .load rom → s.started = false) :
    ∃ t, s.handle ev = .next t := by
  cases ev with
  | step => exact stepEvent_answers s
  | load rom =>
    obtain ⟨hs, -⟩ | ⟨-, -, h⟩ | ⟨-, -, h⟩ := loadEvent_cases s rom
    · exact absurd hs (Bool.eq_false_iff.mp (hl rom rfl))
    · exact ⟨_, h⟩
    · exact ⟨_, h⟩
  | reset | tick | keysHeld | keyPress | rnd | presentAck => exact ⟨_, rfl⟩

/-- Settles O60: the listed event is a late load, or it is handled; with none listed the step event answers. -/
theorem stepStopsOnlyOnBadLoads : Obligations.StepStopsOnlyOnBadLoads := by
  refine fun s => ⟨?_, fun hl => ?_⟩
  · rintro ⟨⟨rom, es, h⟩, hs⟩
    exact (step_of_cons h).trans (if_pos hs)
  · cases hes : s.inputs with
    | nil => exact step_of_nil hes ▸ stepEvent_answers s
    | cons ev es =>
      rw [step_of_cons hes]
      refine handle_answers _ fun rom hev => Bool.eq_false_iff.mpr fun hs => hl ⟨⟨rom, es, ?_⟩, hs⟩
      rw [hes, hev]

/-- The next event is a step, and `es` are the events after it: none is listed, or a step is listed first
(log 5). -/
def State.StepNext (s : State) (es : List Event) : Prop := (s.inputs = [] ∧ es = []) ∨ s.inputs = .step :: es

/-- A step event in RUN is one cycle, recorded and off the list (R120). -/
theorem step_of_stepNext (hrun : s.runState = .run) (h : s.StepNext es) :
    step s = (s.setInputs es).setStarted.runCycle := by
  obtain ⟨hnil, rfl⟩ | hcons := h
  · have hs : s.setInputs [] = s := by rw [← hnil]; rfl
    rw [step_of_nil hnil, stepEvent_of_run hrun, hs]
  · exact (step_of_cons hcons).trans (stepEvent_of_run (s := s.setInputs es) hrun)

/-- The big-endian word at pc (R69). -/
def State.wordAtPc (s : State) : Word := wordOfBytes (s.readByte s.pc.toNat) (s.readByte (s.pc.toNat + 1))

/-- The fetch inside memory (R121). -/
theorem memRead16_pc (h : s.pc.toNat + 1 < 0x1000) : s.memRead16 s.pc.toNat = .ok s.wordAtPc :=
  State.memRead16_ok.mpr ⟨h, rfl⟩

theorem runCycle_of_illegal (h : s.pc.toNat + 1 < 0x1000) (hd : decode s.wordAtPc = none) :
    s.runCycle = .next (s.raise (illegalTrap s.wordAtPc)) := by
  simp only [State.runCycle, memRead16_pc h, hd]

theorem runCycle_of_decode (h : s.pc.toNat + 1 < 0x1000) (hd : decode s.wordAtPc = some i) :
    s.runCycle = exec i s := by
  simp only [State.runCycle, memRead16_pc h, hd]

/-- The fetch outside memory (R66, R121). -/
theorem runCycle_of_outside (h : 0x1000 ≤ s.pc.toNat + 1) :
    s.runCycle = .next (s.raise ⟨.addressFault, BitVec.ofNat 17 (max s.pc.toNat 0x1000)⟩) := by
  have htrap : rangeTrap s.pc.toNat 2 = some ⟨.addressFault, BitVec.ofNat 17 (max s.pc.toNat 0x1000)⟩ :=
    rangeTrap_of_past_end (by decide) (Nat.add_lt_add_right h 1)
  simp only [State.runCycle, State.memRead16, htrap]

/-- Settles O39: the cycle whose word decodes to nothing. -/
theorem illegalWordsFault : Obligations.IllegalWordsFault := by
  intro s es hrun hnext hpc hd
  rw [step_of_stepNext hrun hnext]
  exact runCycle_of_illegal (s := (s.setInputs es).setStarted) hpc hd

/-- Settles O40: the cycle whose fetch runs past the end; the lowest address outside is pc, or 0x1000 when only the
second byte is outside. -/
theorem fetchOutsideMemoryFaults : Obligations.FetchOutsideMemoryFaults := by
  intro s es hrun hnext hpc
  have hmax : max s.pc.toNat 0x1000 = if s.pc.toNat = 0xFFF then 0x1000 else s.pc.toNat := by
    split <;> omega
  rw [step_of_stepNext hrun hnext, ← hmax]
  exact runCycle_of_outside (s := (s.setInputs es).setStarted) hpc

/-- Settles O42: the cycle whose word decodes, with no event listed and with a step listed first. -/
theorem stepRunsTheDecodedInstruction : Obligations.StepRunsTheDecodedInstruction := by
  refine fun s i es hrun hpc hd => ⟨fun h => ?_, fun h => ?_⟩
  · rw [step_of_nil h, stepEvent_of_run hrun]
    exact runCycle_of_decode (s := s.setStarted) hpc hd
  · rw [step_of_stepNext hrun (.inr h)]
    exact runCycle_of_decode (s := (s.setInputs es).setStarted) hpc hd

end Sys2Proof.Machine
end

section
/-! Families 0, 1 and 2: CLS (O1), SYS (O2), JP (O3), CALL (O4) and RET (O5). -/

namespace Sys2Proof.Machine

variable {i : Instr} {s : State}

/-- The word that the encoder gives a well-formed instruction is the one that decodes to it (R93, R96). -/
theorem encodes_encode (h : i.wf = true) : Encodes (encode i) i := ⟨decode_encode h, rfl⟩

/-- The display that CLS writes is clear everywhere (R140). -/
theorem Display.cell_replicate_zero (x y : Nat) : Display.cell (Vector.replicate 32 0) x y = false := by
  by_cases hy : y < 32 <;> simp [Display.cell, hy]

/-- Settles O1: the three writes of CLS, the display read back cell by cell. -/
theorem clearDisplayClearsEveryCell : Obligations.ClearDisplayClearsEveryCell :=
  ⟨encodes_encode (i := .cls) rfl, fun s =>
    ⟨_, exec_cls s, fun x y _ _ => Display.cell_replicate_zero x y, rfl, fun _ => rfl⟩⟩

/-- Settles O2: a SYS other than the words of CLS and RET is well-formed, and its meaning is the normal advance. -/
theorem sysOnlyAdvances : Obligations.SysOnlyAdvances :=
  fun nnn hcls hret => ⟨encodes_encode (i := .sys nnn) (wf_sys.mpr ⟨hcls, hret⟩), exec_sys nnn⟩

/-- Settles O3: the meaning of JP is the one write to pc. -/
theorem jumpGoesToAddress : Obligations.JumpGoesToAddress :=
  fun nnn => ⟨encodes_encode (i := .jp nnn) rfl, exec_jp nnn⟩

/-- With room on the stack CALL pushes its own address and jumps (R144). -/
theorem execCall_of_room (nnn : Addr12) (h : s.sp.val < 16) :
    execCall nnn s = .next { s with
      stack := s.stack.set s.sp.val s.pc, sp := ⟨s.sp.val + 1, by omega⟩, pc := zext16 nnn } :=
  ((execCall_cases nnn s).resolve_right fun ⟨hfull, _⟩ => by omega).2

/-- On a full stack CALL enters FAULTED (R144, decision D4). -/
theorem execCall_of_full (nnn : Addr12) (h : s.sp.val = 16) :
    execCall nnn s = .next (s.raise ⟨.stackOverflowFault, (encode (.call nnn)).setWidth 17⟩) :=
  ((execCall_cases nnn s).resolve_left fun ⟨hroom, _⟩ => by omega).2

/-- Settles O4: room on the stack or none. -/
theorem callPushesItsOwnAddress : Obligations.CallPushesItsOwnAddress := by
  refine fun nnn => ⟨encodes_encode (i := .call nnn) rfl, fun s => ⟨fun hroom => ?_, execCall_of_full nnn⟩⟩
  refine ⟨_, execCall_of_room nnn hroom, fun k hk => ?_, rfl, rfl, fun _ => rfl⟩
  simp only [Vector.getElem_set, eq_comm (a := k)]

/-- On an empty stack RET enters FAULTED (R141, decision D5). -/
theorem execRet_of_empty (h : s.sp.val = 0) :
    execRet s = .next (s.raise ⟨.stackUnderflowFault, (encode .ret).setWidth 17⟩) :=
  ((execRet_cases s).resolve_left fun ⟨_, _, hk, _⟩ => by omega).2

/-- Settles O5: the entry on top is the one at SP - 1, or there is none. -/
theorem returnPopsAndAdvances : Obligations.ReturnPopsAndAdvances := by
  refine ⟨encodes_encode (i := .ret) rfl, fun s => ⟨fun hpos => ?_, execRet_of_empty⟩⟩
  have hlt : s.sp.val - 1 < 16 := by omega
  have hval : s.sp.val = s.sp.val - 1 + 1 := by omega
  exact ⟨_, execRet_of_top (n := ⟨s.sp.val - 1, by omega⟩) hlt hval rfl, rfl, rfl, rfl, fun _ => rfl⟩

end Sys2Proof.Machine
end

section
/-! Families 3, 4, 5 and 9: the skips on an immediate (O7) and on two registers (O8). -/

namespace Sys2Proof.Machine

variable {t n : Nibble}

/-- A skip on the test of `p` writes pc by `p` and nothing else (R124). -/
theorem State.skipIf_of_iff (s : State) {c : Bool} {p : Prop} [Decidable p] (h : c = true ↔ p) :
    s.skipIf c = { s with pc := if p then s.pc + 4 else s.pc + 2 } := by
  by_cases hp : p
  · rw [h.mpr hp, if_pos hp]; rfl
  · rw [Bool.eq_false_iff.mpr (mt h.mp hp), if_neg hp]; rfl

/-- Settles O7: each test of the immediate says what its skip depends on. -/
theorem skipsCompareWithImmediate : Obligations.SkipsCompareWithImmediate := fun x nn =>
  ⟨encodes_encode (i := .seImm x nn) rfl, encodes_encode (i := .sneImm x nn) rfl, fun s =>
    ⟨congrArg _ (s.skipIf_of_iff beq_iff_eq), congrArg _ (s.skipIf_of_iff bne_iff_ne)⟩⟩

/-- A word of family 5 or 9 with N other than 0 is ILLEGAL (R101, decision D14). -/
theorem decode_regSkip_eq_none (x y : Reg) (ht : t = 0x5#4 ∨ t = 0x9#4) (hn : n ≠ 0x0#4) :
    decode (wordRegReg t x y n) = none := by
  obtain rfl | rfl := ht <;> simp [decode, decodeRegSkip_eq_none, hn]

/-- Settles O8: each test of the two registers says what its skip depends on. -/
theorem skipsCompareRegisters : Obligations.SkipsCompareRegisters := fun x y =>
  ⟨encodes_encode (i := .seReg x y) rfl, encodes_encode (i := .sneReg x y) rfl,
    fun _ hn => ⟨decode_regSkip_eq_none x y (.inl rfl) hn, decode_regSkip_eq_none x y (.inr rfl) hn⟩, fun s =>
    ⟨congrArg _ (s.skipIf_of_iff beq_iff_eq), congrArg _ (s.skipIf_of_iff bne_iff_ne)⟩⟩

end Sys2Proof.Machine
end

section
/-! Families 6 and 7: LD Vx, NN (O9) and ADD Vx, NN (O10). -/

namespace Sys2Proof.Machine

/-- The one rule for every instruction that writes a result to Vx, sets no flag and goes on to the next (R124). -/
theorem State.setReg_advance_spec (s : State) (x : Reg) (b : Byte) :
    (∀ y, (s.setReg x b).advance.reg y = if y = x then b else s.reg y) ∧
      (s.setReg x b).advance = { s with v := (s.setReg x b).advance.v, pc := s.pc + 2 } ∧
      ∀ a, (s.setReg x b).advance.readByte a = s.readByte a :=
  ⟨fun y => s.reg_setReg x y b, rfl, fun _ => rfl⟩

/-- Settles O9: the result is NN. -/
theorem loadImmediateWritesRegister : Obligations.LoadImmediateWritesRegister := fun x nn =>
  ⟨encodes_encode (i := .ldImm x nn) rfl, fun s => ⟨_, rfl, s.setReg_advance_spec x nn⟩⟩

/-- Settles O10: the result is the sum of two bytes, which wraps mod 256. -/
theorem addImmediateWrapsWithoutFlag : Obligations.AddImmediateWrapsWithoutFlag := fun x nn =>
  ⟨encodes_encode (i := .addImm x nn) rfl, fun s => by
    obtain ⟨hreg, hframe⟩ := s.setReg_advance_spec x (s.reg x + nn)
    refine ⟨_, rfl, ?_, fun y hy => (hreg y).trans (if_neg hy), hframe⟩
    rw [hreg, if_pos rfl, BitVec.toNat_add]⟩

end Sys2Proof.Machine
end

section
/-! Family 8: LD, OR, AND and XOR (O11), ADD (O12), SUB and SUBN (O13), SHR and SHL (O14). -/

namespace Sys2Proof.Machine

/-- The one rule for every instruction that writes a result to Vx, then its flag to VF, and goes on to the next
(R123, R124, R190). -/
theorem State.setRegFlag_advance_spec (s : State) (x : Reg) (r : Byte) (c : Bool) :
    (s.setRegFlag x r c).advance.reg VF = flagByte c ∧
      (x ≠ VF → (s.setRegFlag x r c).advance.reg x = r) ∧
      (∀ z, z ≠ x → z ≠ VF → (s.setRegFlag x r c).advance.reg z = s.reg z) ∧
      (s.setRegFlag x r c).advance = { s with v := (s.setRegFlag x r c).advance.v, pc := s.pc + 2 } ∧
      ∀ a, (s.setRegFlag x r c).advance.readByte a = s.readByte a := by
  have hreg : ∀ z, (s.setRegFlag x r c).advance.reg z = if z = VF then flagByte c else if z = x then r else s.reg z :=
    fun z => s.reg_setRegFlag x z r c
  refine ⟨?_, fun hx => ?_, fun z hz hf => ?_, rfl, fun _ => rfl⟩
  · rw [hreg, if_pos rfl]
  · rw [hreg, if_neg hx, if_pos rfl]
  · rw [hreg, if_neg hf, if_neg hz]

/-- A comparison in VF is 1 or 0 (R9). -/
theorem flagByte_decide (p : Prop) [Decidable p] : flagByte (decide p) = if p then 1 else 0 := by
  simp [flagByte]

/-- The number that a flag in VF stands for (R9). -/
theorem toNat_flagByte (c : Bool) : (flagByte c).toNat = c.toNat := by
  cases c <;> rfl

/-- The bit that a right shift moves out is the remainder of the halving (R197). -/
theorem toNat_lowBit (a : Byte) : (lowBit a).toNat = a.toNat % 2 := by
  rw [lowBit, ← BitVec.testBit_toNat, Nat.toNat_testBit, pow_zero, Nat.div_one]

/-- The bit that a left shift moves out is 1 exactly for the bytes from 128 on (R199). -/
theorem toNat_highBit (a : Byte) : (highBit a).toNat = a.toNat / 128 := by
  have hlt : a.toNat / 128 < 2 := Nat.div_lt_of_lt_mul a.isLt
  rw [highBit, ← BitVec.testBit_toNat, Nat.toNat_testBit]
  exact Nat.mod_eq_of_lt hlt

/-- The difference of two bytes is the exact one mod 256 (R201). -/
theorem toNat_byte_sub (a b : Byte) : ((a - b).toNat : Int) = ((a.toNat : Int) - (b.toNat : Int)) % 256 := by
  have hb := b.isLt
  rw [BitVec.toNat_sub]
  omega

/-- The source of a shift is the register that SHIFT_SOURCE names (R197, R199, decision D8). -/
theorem State.shiftOperand_eq {s : State} {x y : Reg} {src : Byte}
    (h : (s.params.shiftSource = .vx ∧ src = s.reg x) ∨ (s.params.shiftSource = .vy ∧ src = s.reg y)) :
    s.shiftOperand x y = src := by
  obtain ⟨hsrc, rfl⟩ | ⟨hsrc, rfl⟩ := h <;> rw [State.shiftOperand, hsrc]

/-- Settles O11: each of the four writes its result to Vx and sets no flag. -/
theorem logicOperationsWriteOnlyVx : Obligations.LogicOperationsWriteOnlyVx := by
  refine fun x y => ⟨encodes_encode (i := .ldReg x y) rfl, encodes_encode (i := .orReg x y) rfl,
    encodes_encode (i := .andReg x y) rfl, encodes_encode (i := .xorReg x y) rfl, fun s i r hi => ?_⟩
  obtain ⟨rfl, rfl⟩ | ⟨rfl, rfl⟩ | ⟨rfl, rfl⟩ | ⟨rfl, rfl⟩ := hi
  all_goals exact ⟨_, rfl, s.setReg_advance_spec x _⟩

/-- Settles O12: the result is the sum of two bytes, which wraps mod 256, the flag the comparison of the exact sum. -/
theorem addSetsCarry : Obligations.AddSetsCarry := by
  refine fun x y => ⟨encodes_encode (i := .addReg x y) rfl, fun s => ?_⟩
  obtain ⟨hflag, hres, hframe⟩ :=
    s.setRegFlag_advance_spec x (s.reg x + s.reg y) (carryOf (s.reg x) (s.reg y))
  refine ⟨_, rfl, hflag.trans (flagByte_decide _), fun hx => ?_, hframe⟩
  rw [hres hx, BitVec.toNat_add]

/-- Settles O13: SUB and SUBN differ only in which operand is subtracted from which. -/
theorem subtractSetsStrictComparison : Obligations.SubtractSetsStrictComparison := by
  refine fun x y => ⟨encodes_encode (i := .sub x y) rfl, encodes_encode (i := .subn x y) rfl, fun s i a b hi => ?_⟩
  have hexec : exec i s = .next (s.setRegFlag x (a - b) (greaterThan a b)).advance := by
    obtain ⟨rfl, rfl, rfl⟩ | ⟨rfl, rfl, rfl⟩ := hi <;> rfl
  obtain ⟨hflag, hres, hframe⟩ := s.setRegFlag_advance_spec x (a - b) (greaterThan a b)
  refine ⟨_, hexec, hflag.trans (flagByte_decide _), fun hx => ?_, hframe⟩
  rw [hres hx, toNat_byte_sub]

/-- Settles O14: the result is half or double the source, the flag the bit that the shift moves out. -/
theorem shiftsMoveOneBitIntoVF : Obligations.ShiftsMoveOneBitIntoVF := by
  refine fun x y => ⟨encodes_encode (i := .shr x y) rfl, encodes_encode (i := .shl x y) rfl, fun s src hsrc => ?_⟩
  obtain rfl := State.shiftOperand_eq hsrc
  refine ⟨?_, ?_⟩
  · obtain ⟨hflag, hres, hframe⟩ :=
      s.setRegFlag_advance_spec x (s.shiftOperand x y >>> 1) (lowBit (s.shiftOperand x y))
    refine ⟨_, rfl, ?_, fun hx => ?_, hframe⟩
    · rw [hflag, toNat_flagByte, toNat_lowBit]
    · rw [hres hx, BitVec.toNat_ushiftRight, Nat.shiftRight_one]
  · obtain ⟨hflag, hres, hframe⟩ :=
      s.setRegFlag_advance_spec x (s.shiftOperand x y <<< 1) (highBit (s.shiftOperand x y))
    refine ⟨_, rfl, ?_, fun hx => ?_, hframe⟩
    · rw [hflag, toNat_flagByte, toNat_highBit]
    · rw [hres hx, BitVec.toNat_shiftLeft, Nat.shiftLeft_eq, pow_one]

end Sys2Proof.Machine
end

section
/-! Families A, B and C: LD I (O15), JP V0 (O16) and RND with the rnd event (O17). -/

namespace Sys2Proof.Machine

/-- The address of an instruction as a word is the same number. -/
theorem toNat_zext16 (nnn : Addr12) : (zext16 nnn).toNat = nnn.toNat :=
  BitVec.toNat_setWidth_of_le (by decide)

/-- The sum of NNN and a byte fits a word, so it is exact (R224). -/
theorem toNat_zext16_add (nnn : Addr12) (b : Byte) :
    (zext16 nnn + b.setWidth 16).toNat = nnn.toNat + b.toNat := by
  have hn := nnn.isLt
  have hb := b.isLt
  rw [BitVec.toNat_add, toNat_zext16, BitVec.toNat_setWidth_of_le (by decide)]
  omega

/-- A byte that the host drives is the byte on the port, whatever the free value (R39, log 6). -/
@[simp] theorem State.rndByte_driveRnd (s : State) (b : Byte) : (s.driveRnd b).rndByte = b := rfl

/-- Settles O15: the meaning of LD I is the one write to I and the normal advance. -/
theorem loadIndexImmediate : Obligations.LoadIndexImmediate :=
  fun nnn => ⟨encodes_encode (i := .ldI nnn) rfl, exec_ldI nnn⟩

/-- Settles O16: the meaning of JP V0 is the one write to pc, of a sum that does not wrap. -/
theorem jumpWithOffsetAddsV0 : Obligations.JumpWithOffsetAddsV0 := fun nnn =>
  ⟨encodes_encode (i := .jpV0 nnn) rfl, fun s =>
    ⟨_, exec_jpV0 nnn s, toNat_zext16_add nnn (s.reg 0), rfl, fun _ => rfl⟩⟩

/-- Settles O17: RND writes its result to Vx after the port's byte is used, and the event is the one write to the
port. -/
theorem randomIsMaskedPortByte : Obligations.RandomIsMaskedPortByte := by
  refine fun x nn => ⟨encodes_encode (i := .rnd x nn) rfl, fun s => ⟨?_, fun b => ?_⟩⟩
  · exact ⟨_, exec_rnd x nn s, s.usedRnd.setReg_advance_spec x (s.rndByte &&& nn)⟩
  · exact ⟨s.rndByte_driveRnd b, fun _ h => ⟨step_of_cons h, rfl⟩⟩

end Sys2Proof.Machine
end

section
/-! Family D: DRW when its checks pass (O18), outside memory (O19) and past the array (O20); a draw repeated (O21)
and after CLS (O22). -/

namespace Sys2Proof.Machine

variable {s s' t : State} {x y : Reg} {n : Nibble} {cells : List (Nat × Nat)}

/-! ### The cells that the checks give -/

/-- The listed cells are the cells of the display that the sprite reaches (R240). -/
theorem State.mem_spriteCells (h : s.spriteCells x y n = .ok cells) (u v : Nat) :
    (u, v) ∈ cells ↔ u < 64 ∧ v < 32 ∧ s.reaches x y n u v := by
  obtain ⟨-, hin, hmem⟩ := State.spriteCells_ok h
  constructor
  · intro hc
    obtain ⟨hu, hv⟩ := hin _ hc
    exact ⟨hu, hv, (hmem u v hu hv).mp hc⟩
  · rintro ⟨hu, hv, hr⟩
    exact (hmem u v hu hv).mpr hr

/-- A property holds of some listed cell exactly when it holds of some reached cell of the display. -/
theorem State.exists_mem_spriteCells (h : s.spriteCells x y n = .ok cells) (p : Nat → Nat → Prop) :
    (∃ u v, (u, v) ∈ cells ∧ p u v) ↔ ∃ u v, u < 64 ∧ v < 32 ∧ s.reaches x y n u v ∧ p u v := by
  simp only [State.mem_spriteCells h, and_assoc]

/-- The checks read only I, the parameters, Vx, Vy and memory (R240). -/
theorem State.spriteCells_congr (hI : s'.I = s.I) (hp : s'.params = s.params) (hx : s'.reg x = s.reg x)
    (hy : s'.reg y = s.reg y) (hm : ∀ a, s'.readByte a = s.readByte a) :
    s'.spriteCells x y n = s.spriteCells x y n := by
  simp only [State.spriteCells, State.memRead, State.readBytes, hI, hp, hx, hy, hm]

/-! ### What the draw loop does with them -/

/-- The loop reports a collision exactly when some listed cell was set (R244). -/
theorem Display.collision_spriteCells (h : s.spriteCells x y n = .ok cells) (fb : Display) :
    (Display.draw cells fb false).2 = true ↔ ∃ u v, (u, v) ∈ cells ∧ Display.cell fb u v = true := by
  obtain ⟨hnd, hin, -⟩ := State.spriteCells_ok h
  rw [Display.hit_draw fb false hnd hin, Bool.false_or, List.any_eq_true, Prod.exists]

/-- Each cell after the loop: flipped if it is listed, else as it was (R244). -/
theorem Display.cell_draw_spriteCells (h : s.spriteCells x y n = .ok cells) (fb : Display) (u v : Nat) :
    Display.cell (Display.draw cells fb false).1 u v =
      if (u, v) ∈ cells then !Display.cell fb u v else Display.cell fb u v := by
  obtain ⟨hnd, hin, -⟩ := State.spriteCells_ok h
  exact Display.cell_draw fb false hnd hin u v

/-- The loop run twice over the same cells flips each of them back (R252). -/
theorem Display.draw_draw_spriteCells (h : s.spriteCells x y n = .ok cells) (fb : Display) :
    (Display.draw cells (Display.draw cells fb false).1 false).1 = fb := by
  refine Display.ext fun u v _ _ => ?_
  rw [Display.cell_draw_spriteCells h, Display.cell_draw_spriteCells h]
  by_cases hc : (u, v) ∈ cells <;> simp [hc]

/-! ### The state that a completed draw leaves -/

/-- VF holds the collision, every other register what it held (R245). -/
theorem State.reg_drawCells_advance (s : State) (cells : List (Nat × Nat)) (z : Reg) :
    (s.drawCells cells).advance.reg z =
      if z = VF then flagByte (Display.draw cells s.fb false).2 else s.reg z :=
  (s.setFb (Display.draw cells s.fb false).1).reg_setFlag z _

/-- VF after a draw is the collision as a flag (R245). -/
theorem State.flag_drawCells_advance (s : State) (cells : List (Nat × Nat)) :
    (s.drawCells cells).advance.reg VF = flagByte (Display.draw cells s.fb false).2 :=
  (s.reg_drawCells_advance cells VF).trans (if_pos rfl)

theorem flagByte_eq_one {c : Bool} : flagByte c = 1 ↔ c = true := by cases c <;> decide

theorem flagByte_eq_zero {c : Bool} : flagByte c = 0 ↔ c = false := by cases c <;> decide

/-- VF is 1 after a draw exactly if one of the cells it flips was set (R244, R245). -/
theorem State.flag_drawCells_eq_one (h : s.spriteCells x y n = .ok cells) (t : State) :
    (t.drawCells cells).advance.reg VF = 1 ↔ ∃ u v, (u, v) ∈ cells ∧ t.pixel u v = true := by
  rw [State.flag_drawCells_advance, flagByte_eq_one]
  exact Display.collision_spriteCells h t.fb

/-- VF is 0 after a draw exactly if none of the cells it flips was set (R244, R245). -/
theorem State.flag_drawCells_eq_zero (h : s.spriteCells x y n = .ok cells) (t : State) :
    (t.drawCells cells).advance.reg VF = 0 ↔ ¬ ∃ u v, (u, v) ∈ cells ∧ t.pixel u v = true := by
  rw [State.flag_drawCells_advance, flagByte_eq_zero, ← Bool.not_eq_true]
  exact not_congr (Display.collision_spriteCells h t.fb)

/-- The cells after a draw: each listed one is flipped, every other is as it was (R244). -/
theorem State.pixel_drawCells_advance (h : s.spriteCells x y n = .ok cells) (t : State) (u v : Nat) :
    (t.drawCells cells).advance.pixel u v = if (u, v) ∈ cells then !t.pixel u v else t.pixel u v :=
  Display.cell_draw_spriteCells h t.fb u v

/-! ### The two ways DRW goes -/

/-- DRW when its checks pass draws the cells they give. -/
theorem exec_drw_of_ok (h : s.spriteCells x y n = .ok cells) :
    exec (.drw x y n) s = .next (s.drawCells cells).advance := by
  rw [exec_drw, execDrw, h]

/-- DRW raises what its checks raise, and draws nothing. -/
theorem exec_drw_of_error {e : Trap} (h : s.spriteCells x y n = .error e) :
    exec (.drw x y n) s = .next (s.raise e) := by
  rw [exec_drw, execDrw, h]

/-- A DRW that does not end in FAULTED has passed its checks. -/
theorem exec_drw_inv (h : exec (.drw x y n) s = .next t) (ht : t.runState ≠ .faulted) :
    ∃ cells, s.spriteCells x y n = .ok cells ∧ t = (s.drawCells cells).advance := by
  rw [exec_drw] at h
  obtain ⟨cells, hc, hd⟩ | ⟨e, -, he⟩ := execDrw_cases x y n s
  · rw [hd] at h
    cases h
    exact ⟨cells, hc, rfl⟩
  · rw [he] at h
    cases h
    exact absurd (s.raise_runState e) ht

/-! ### Where the checks fail -/

/-- A sprite that runs past the end of memory is not read (R242, R66). -/
theorem State.spriteCells_of_past_end (hn : 0 < n.toNat) (h : Config.memSize < s.I.toNat + n.toNat) :
    s.spriteCells x y n = .error ⟨.addressFault, BitVec.ofNat 17 (max s.I.toNat Config.memSize)⟩ := by
  rw [State.spriteCells, State.memRead, rangeTrap_of_past_end hn h]

/-- Of the set bits whose flat index is outside the array, the first in drawing order has the lowest index, and
the fault names it (R247). -/
theorem placeBits_flat_lowest {bits : List (Nat × Nat)} {x0 y0 : Nat} (hb : ∀ b ∈ bits, b.1 < 8)
    (hord : bits.Pairwise fun a b => a.2 < b.2 ∨ (a.2 = b.2 ∧ a.1 < b.1))
    (h : ∃ b ∈ bits, 2048 ≤ (y0 + b.2) * 64 + (x0 + b.1)) :
    ∃ b ∈ bits, 2048 ≤ (y0 + b.2) * 64 + (x0 + b.1) ∧
      (∀ b' ∈ bits, 2048 ≤ (y0 + b'.2) * 64 + (x0 + b'.1) →
        (y0 + b.2) * 64 + (x0 + b.1) ≤ (y0 + b'.2) * 64 + (x0 + b'.1)) ∧
      placeBits .flat x0 y0 bits =
        .error ⟨.drawBoundsFault, BitVec.ofNat 17 ((y0 + b.2) * 64 + (x0 + b.1))⟩ := by
  obtain ⟨pre, b, post, rfl, hpre, hout, hfault⟩ := placeBits_flat_outside h
  obtain ⟨-, hord, -⟩ := List.pairwise_append.mp hord
  have hafter := (List.pairwise_cons.mp hord).1
  refine ⟨b, by simp, hout, fun b' hm hout' => ?_, hfault⟩
  have hcol := hb b (by simp)
  obtain hm | hm := List.mem_append.mp hm
  · exact absurd (hpre b' hm) (Nat.not_lt.mpr hout')
  · obtain rfl | hm := List.mem_cons.mp hm
    · exact le_rfl
    · have := hafter b' hm
      omega

/-! ### The statements -/

/-- Settles O18: the cells that the checks give are the reached ones, and the loop flips exactly those. -/
theorem drawFlipsExactlyTheReachedCells : Obligations.DrawFlipsExactlyTheReachedCells := by
  refine fun x y n => ⟨encodes_encode (i := .drw x y n) rfl, fun s hmem hflat => ?_⟩
  have hn : n.toNat = 0 ∨ s.I.toNat + n.toNat ≤ Config.memSize :=
    hmem.imp_left fun h => by rw [h]; rfl
  obtain ⟨cells, hc⟩ := State.spriteCells_exists hn hflat
  refine ⟨_, exec_drw_of_ok hc, fun u v hu hv => ?_, fun hhit => ?_, fun hhit => ?_, fun z hz => ?_, rfl,
    fun _ => rfl⟩
  · obtain ⟨-, -, hmem⟩ := State.spriteCells_ok hc
    rw [State.pixel_drawCells_advance hc, ← hmem u v hu hv]
    by_cases hm : (u, v) ∈ cells <;> simp [hm]
  · rwa [State.flag_drawCells_eq_one hc, State.exists_mem_spriteCells hc]
  · rwa [State.flag_drawCells_eq_zero hc, State.exists_mem_spriteCells hc]
  · rw [State.reg_drawCells_advance, if_neg hz]

/-- Settles O19: the range check fails before anything is drawn. -/
theorem drawOutsideMemoryFaults : Obligations.DrawOutsideMemoryFaults := by
  intro s x y n hn hpast
  have hpos : 0 < n.toNat := Nat.pos_of_ne_zero fun h => hn (BitVec.eq_of_toNat_eq h)
  exact exec_drw_of_error (State.spriteCells_of_past_end hpos hpast)

/-- Settles O20: the bits are drawn in the order of their flat indices, so the first one outside is the lowest. -/
theorem flatDrawPastTheArrayFaults : Obligations.FlatDrawPastTheArrayFaults := by
  intro s x y n hmem hflat hout
  have hset := s.mem_spriteBits_readBytes n
  obtain ⟨⟨c, r⟩, hm, hge, hlow, hfault⟩ :=
    placeBits_flat_lowest (x0 := (s.reg x).toNat) (y0 := (s.reg y).toNat)
      (fun b hb => (mem_spriteBits.mp hb).1) (pairwise_spriteBits 0 (s.readBytes s.I.toNat n.toNat))
      (by simpa only [Prod.exists, hset] using hout)
  refine ⟨c, r, (hset c r).mp hm, hge, fun c' r' hb => hlow (c', r') ((hset c' r').mpr hb), ?_⟩
  have hcells : s.spriteCells x y n = .error ⟨.drawBoundsFault,
      BitVec.ofNat 17 (((s.reg y).toNat + r) * 64 + ((s.reg x).toNat + c))⟩ := by
    rw [State.spriteCells, State.memRead_ok.mpr ⟨.inr hmem, rfl⟩, hflat]
    exact hfault
  exact exec_drw_of_error hcells

/-- Settles O21: both draws have the same cells, and a cell flipped by the first is set for the second exactly if
it was clear. -/
theorem doubleDrawRestoresDisplay : Obligations.DoubleDrawRestoresDisplay := by
  intro s t s' u x y n hdraw ht hfb hI hp hx hy hm hdraw'
  obtain ⟨cells, hc, rfl⟩ := exec_drw_inv hdraw ht
  rw [exec_drw_of_ok ((State.spriteCells_congr hI hp hx hy hm).trans hc)] at hdraw'
  cases hdraw'
  refine ⟨?_, ?_, ?_⟩
  · rw [State.advance_fb, State.drawCells_fb, hfb]
    exact Display.draw_draw_spriteCells hc s.fb
  · rw [State.flag_drawCells_eq_one hc, State.exists_mem_spriteCells hc]
  · rw [State.flag_drawCells_eq_one hc, ← State.exists_mem_spriteCells hc]
    refine exists_congr fun a => exists_congr fun b => and_congr_right fun hab => ?_
    have hflip : s'.pixel a b = !s.pixel a b := by
      rw [State.pixel, hfb]
      exact (State.pixel_drawCells_advance hc s a b).trans (if_pos hab)
    rw [hflip, Bool.not_eq_true']

/-- Settles O22: CLS leaves every cell clear and the inputs of the draw as they were, so the draw sets the cells it
reaches and meets no set one. -/
theorem clearThenDrawShowsTheSpriteAlone : Obligations.ClearThenDrawShowsTheSpriteAlone := by
  intro s t u x y n hcls hdraw hrun hs
  obtain ⟨cells, hc, rfl⟩ := exec_drw_inv hdraw (hrun ▸ hs)
  cases hcls
  have hclear : ∀ a b, State.pixel ((s.setFb (Vector.replicate 32 0)).setDirty true).advance a b = false :=
    Display.cell_replicate_zero
  obtain ⟨-, -, hmem⟩ := State.spriteCells_ok hc
  refine ⟨fun a b ha hb => ?_, ?_⟩
  · rw [State.pixel_drawCells_advance hc, hclear]
    refine Iff.trans ?_ (hmem a b ha hb)
    by_cases hm : (a, b) ∈ cells <;> simp [hm]
  · rw [State.flag_drawCells_eq_zero hc]
    rintro ⟨a, b, -, hset⟩
    exact Bool.false_ne_true ((hclear a b).symm.trans hset)

end Sys2Proof.Machine
end

section
/-! Family E: SKP and SKNP with a key's number in Vx, with the keys_held event (O23), and with another byte (O24). -/

namespace Sys2Proof.Machine

variable {s : State} {x : Reg}

/-- A skip on the opposite of `c` (R124, R271). -/
theorem State.skipIf_not (s : State) (c : Bool) :
    s.skipIf (!c) = { s with pc := if c then s.pc + 2 else s.pc + 4 } := by
  cases c <;> rfl

/-- With a key's number in Vx, SKP samples keys_held and skips if the key is held (R270). -/
theorem execSkp_of_key (h : (s.reg x).toNat < 16) :
    execSkp x s = .next (s.sampledKeys.skipIf (s.keyHeld (s.reg x).toNat)) :=
  ((execSkp_cases x s).resolve_right fun ⟨hge, _⟩ => by omega).2

/-- With a key's number in Vx, SKNP samples keys_held and skips if the key is not held (R271). -/
theorem execSknp_of_key (h : (s.reg x).toNat < 16) :
    execSknp x s = .next (s.sampledKeys.skipIf (!s.keyHeld (s.reg x).toNat)) :=
  ((execSknp_cases x s).resolve_right fun ⟨hge, _⟩ => by omega).2

/-- With another byte in Vx, SKP enters FAULTED (R273, decision D15). -/
theorem execSkp_of_no_key (h : 16 ≤ (s.reg x).toNat) :
    execSkp x s = .next (s.raise ⟨.keyIndexFault, (s.reg x).setWidth 17⟩) :=
  ((execSkp_cases x s).resolve_left fun ⟨hlt, _⟩ => by omega).2

/-- With another byte in Vx, SKNP enters FAULTED (R273, decision D15). -/
theorem execSknp_of_no_key (h : 16 ≤ (s.reg x).toNat) :
    execSknp x s = .next (s.raise ⟨.keyIndexFault, (s.reg x).setWidth 17⟩) :=
  ((execSknp_cases x s).resolve_left fun ⟨hlt, _⟩ => by omega).2

/-- A level that the host drives is the level on the port, whatever the free value (R39, log 7). -/
@[simp] theorem State.keyLevel_driveKeys (s : State) (level : BitVec 16) :
    (s.driveKeys level).keyLevel = level := rfl

/-- Settles O23: both skips test bit Vx of the level that keys_held has, and the event is the one write to the
level. -/
theorem keySkipsFollowTheKeyLevel : Obligations.KeySkipsFollowTheKeyLevel := by
  refine fun x => ⟨encodes_encode (i := .skp x) rfl, encodes_encode (i := .sknp x) rfl, fun s =>
    ⟨fun hkey => ⟨?_, ?_⟩, fun level => ⟨s.keyLevel_driveKeys level, fun _ h => ⟨step_of_cons h, rfl⟩⟩⟩⟩
  · exact (execSkp_of_key hkey).trans (congrArg _ (s.sampledKeys.skipIf_of_iff Iff.rfl))
  · exact (execSknp_of_key hkey).trans (congrArg _ (s.sampledKeys.skipIf_not _))

/-- Settles O24: the index check of either skip is its fault entry. -/
theorem keyIndexOutOfRangeFaults : Obligations.KeyIndexOutOfRangeFaults := by
  rintro s x i (rfl | rfl) hge
  · exact execSkp_of_no_key hge
  · exact execSknp_of_no_key hge

end Sys2Proof.Machine
end

section
/-! Family F on registers: the timers (O25), the key wait (O26), ADD I (O29) and LD F (O30). -/

namespace Sys2Proof.Machine

/-- Settles O25: each of the three is one write and the normal advance. -/
theorem timerInstructionsMoveBytes : Obligations.TimerInstructionsMoveBytes := fun x =>
  ⟨encodes_encode (i := .ldVxDt x) rfl, encodes_encode (i := .ldDtVx x) rfl, encodes_encode (i := .ldStVx x) rfl,
    fun s => ⟨⟨_, exec_ldVxDt x s, s.setReg_advance_spec x s.dt⟩, exec_ldDtVx x s, exec_ldStVx x s⟩⟩

/-- Settles O26: the meaning of FX0A is the entry to the wait, with no advance. -/
theorem keyWaitEntersAwaitKey : Obligations.KeyWaitEntersAwaitKey :=
  fun x => ⟨encodes_encode (i := .ldVxK x) rfl, exec_ldVxK x⟩

/-- FX1E's flag touches the registers only: VF by the exact sum and the parameter, no other (R288, decision D9). -/
theorem State.setIndexFlag_spec (s : State) (sum : Nat) :
    ∃ v : Vector Byte 16, s.setIndexFlag sum = { s with v := v } ∧ (0xFFF < sum → v[15] = 1) ∧
      (sum ≤ 0xFFF → v[15] = if s.params.fx1eVfClear then 0 else s.reg VF) ∧
      ∀ z : Reg, z ≠ VF → v[z.val] = s.reg z := by
  have hother : ∀ c z, z ≠ VF → (s.setFlag c).reg z = s.reg z := fun c z hz => (s.reg_setFlag z c).trans (if_neg hz)
  have hflag : ∀ c, (s.setFlag c).reg VF = flagByte c := fun c => (s.reg_setFlag VF c).trans (if_pos rfl)
  unfold State.setIndexFlag
  cases s.params.fx1eVfClear with
  | true =>
    refine ⟨_, rfl, fun h => (hflag _).trans ?_, fun h => (hflag _).trans ?_, hother _⟩
    · rw [flagByte_decide, if_pos h]
    · rw [flagByte_decide, if_neg (Nat.not_lt.mpr h), if_pos rfl]
  | false =>
    by_cases h : 0xFFF < sum
    · exact ⟨_, if_pos h, fun _ => hflag true, fun hle => absurd h (Nat.not_lt.mpr hle), hother true⟩
    · exact ⟨s.v, if_neg h, fun hlt => absurd hlt h, fun _ => rfl, fun _ _ => rfl⟩

/-- Settles O29: I takes the exact sum mod 2^16, and VF is written last by the same sum. -/
theorem addIndexKeeps16BitsAndFlagsTheExactSum : Obligations.AddIndexKeeps16BitsAndFlagsTheExactSum := by
  refine fun x => ⟨encodes_encode (i := .addI x) rfl, fun s => ?_⟩
  obtain ⟨v, hset, hover, hwithin, hother⟩ :=
    (s.setI (BitVec.ofNat 16 (indexSum s.I (s.reg x)))).setIndexFlag_spec (indexSum s.I (s.reg x))
  have hexec := congrArg (fun u : State => Host.Outcome.next (φ := Fault) (ρ := Refusal) u.advance) hset
  exact ⟨_, hexec, BitVec.toNat_ofNat _ 16, hover, hwithin, hother, rfl, fun _ => rfl⟩

/-- Five times a byte fits a word, so the glyph address is exact (R291). -/
theorem toNat_glyphAddress (b : Byte) : (glyphAddress b).toNat = b.toNat * 5 :=
  Nat.mod_eq_of_lt (by have := b.isLt; simp only [Config.glyphSize]; omega)

/-- Settles O30: I takes the glyph address; the last digit's glyph ends at byte 80. -/
theorem glyphAddressIsFiveTimesTheByte : Obligations.GlyphAddressIsFiveTimesTheByte := by
  refine fun x => ⟨encodes_encode (i := .ldF x) rfl, fun s => ?_⟩
  have hI : (s.setI (glyphAddress (s.reg x))).advance.I.toNat = (s.reg x).toNat * 5 := toNat_glyphAddress _
  exact ⟨_, exec_ldF x s, hI, fun hdigit => by omega, rfl, fun _ => rfl⟩

end Sys2Proof.Machine
end

section
/-! Family F on memory: LD B (O31), LD [I], Vx (O32), LD Vx, [I] (O33), and a load after a store (O35). -/

namespace Sys2Proof.Machine

variable {s t : State} {x : Reg} {a b k : Nat} {ws : List Byte}

/-! ### The bytes after a store -/

theorem State.readByte_storeBytes_inside (hwf : Memory.wf s.base s.mem = true)
    (hin : a + ws.length ≤ Config.memSize) (hk : k < ws.length) :
    (s.storeBytes a ws).readByte (a + k) = ws.getD k 0 := by
  rw [State.readByte_storeBytes hwf hin, if_pos (by omega), Nat.add_sub_cancel_left]

theorem State.readByte_storeBytes_outside (hwf : Memory.wf s.base s.mem = true)
    (hin : a + ws.length ≤ Config.memSize) (hb : b < a ∨ a + ws.length ≤ b) :
    (s.storeBytes a ws).readByte b = s.readByte b := by
  rw [State.readByte_storeBytes hwf hin, if_neg (by omega)]

/-- States with the same memory and parameters read the same bytes. -/
theorem State.readByte_congr (hmem : t.mem = s.mem) (hp : t.params = s.params) (b : Nat) :
    t.readByte b = s.readByte b := by
  rw [State.readByte, State.readByte, State.base, State.base, hmem, hp]

/-! ### What the three instructions answer when their checks pass, and FX65 when its check fails -/

theorem execLdB_of_allowed (hin : s.I.toNat + 3 ≤ Config.memSize)
    (hlow : s.params.lowWritePolicy = .perform ∨ Config.progBase ≤ s.I.toNat) :
    execLdB x s = .next (s.storeBytes s.I.toNat (decimalDigits (s.reg x))).advance := by
  have hpos : 0 < (decimalDigits (s.reg x)).length := Nat.succ_pos 2
  rw [execLdB, (State.memWrite_ok hpos).mpr ⟨hin, hlow, rfl⟩]

theorem execLdMemVx_of_allowed (hin : s.I.toNat + (s.regBlock x).length ≤ Config.memSize)
    (hlow : s.params.lowWritePolicy = .perform ∨ Config.progBase ≤ s.I.toNat) :
    execLdMemVx x s = .next (s.storeBytes s.I.toNat (s.regBlock x)).advance := by
  have hpos : 0 < (s.regBlock x).length := by simp
  rw [execLdMemVx, (State.memWrite_ok hpos).mpr ⟨hin, hlow, rfl⟩]

theorem execLdVxMem_of_inside (hin : s.I.toNat + (x.val + 1) ≤ Config.memSize) :
    execLdVxMem x s = .next (s.loadRegs (s.readBytes s.I.toNat (x.val + 1))).advance := by
  rw [execLdVxMem, State.memRead_ok.mpr ⟨.inr hin, rfl⟩]

/-- A block that runs past the end of memory is not read (R66, R298). -/
theorem execLdVxMem_of_past_end (h : Config.memSize < s.I.toNat + (x.val + 1)) :
    execLdVxMem x s = .next (s.raise ⟨.addressFault, BitVec.ofNat 17 (max s.I.toNat Config.memSize)⟩) := by
  rw [execLdVxMem, State.memRead, rangeTrap_of_past_end x.val.succ_pos h]

/-- A FX55 that does not end in FAULTED has stored its block inside memory. -/
theorem exec_ldMemVx_inv (h : exec (.ldMemVx x) s = .next t) (ht : t.runState ≠ .faulted) :
    s.I.toNat + (x.val + 1) ≤ Config.memSize ∧ t = (s.storeBytes s.I.toNat (s.regBlock x)).advance := by
  rw [exec_ldMemVx] at h
  obtain ⟨hin, -, hs⟩ | ⟨e, -, he⟩ := execLdMemVx_cases x s
  · exact ⟨hin, Host.Outcome.next.inj (h.symm.trans hs)⟩
  · obtain rfl := Host.Outcome.next.inj (h.symm.trans he)
    exact absurd (s.raise_runState e) ht

/-! ### The blocks that they move -/

/-- The three digits of a byte, written out (R294). -/
theorem decimalDigits_spec (b : Byte) : ∃ h t u : Byte, decimalDigits b = [h, t, u] ∧
    b.toNat = 100 * h.toNat + 10 * t.toNat + u.toNat ∧ h.toNat ≤ 2 ∧ t.toNat ≤ 9 ∧ u.toNat ≤ 9 := by
  have hb := b.isLt
  refine ⟨_, _, _, rfl, ?_⟩
  simp only [BitVec.toNat_ofNat]
  omega

/-- Byte k of the block that FX55 stores is V[k] (R296). -/
theorem State.readByte_store_regBlock (hwf : Memory.wf s.base s.mem = true)
    (hin : a + (s.regBlock x).length ≤ Config.memSize) {k : Reg} (hk : k ≤ x) :
    (s.storeBytes a (s.regBlock x)).readByte (a + k.val) = s.reg k := by
  rw [State.readByte_storeBytes_inside hwf hin (by simpa using Nat.lt_succ_of_le hk), s.getD_regBlock x k.isLt hk]

/-- The registers after FX65: V0 to Vx from memory, the others as they were (R298). -/
theorem State.reg_loadRegs_readBytes (s : State) (a : Nat) (x k : Reg) :
    (s.loadRegs (s.readBytes a (x.val + 1))).reg k = if k ≤ x then s.readByte (a + k.val) else s.reg k := by
  rw [State.reg_loadRegs, State.length_readBytes]
  by_cases hk : k ≤ x
  · have hlt : k.val < x.val + 1 := Nat.lt_succ_of_le hk
    rw [if_pos hlt, if_pos hk, State.getD_readBytes s hlt]
  · rw [if_neg (fun hlt => hk (Nat.le_of_lt_succ hlt)), if_neg hk]

/-- Settles O31: the three digits, stored from I on and read back. -/
theorem storeDecimalDigits : Obligations.StoreDecimalDigits := by
  refine fun x => ⟨encodes_encode (i := .ldB x) rfl, fun s hwf hin hlow => ⟨_, execLdB_of_allowed hin hlow, ?_⟩⟩
  obtain ⟨h, t, u, hdigits, hsum, hh, ht, hu⟩ := decimalDigits_spec (s.reg x)
  rw [hdigits]
  have hread : ∀ k < 3, (s.storeBytes s.I.toNat [h, t, u]).advance.readByte (s.I.toNat + k) = [h, t, u].getD k 0 :=
    fun k hk => State.readByte_storeBytes_inside hwf hin hk
  have hfirst : (s.storeBytes s.I.toNat [h, t, u]).advance.readByte s.I.toNat = h := hread 0 (by decide)
  rw [hfirst, hread 1 (by decide), hread 2 (by decide)]
  exact ⟨hsum, hh, ht, hu, fun a ha => State.readByte_storeBytes_outside hwf hin ha, rfl,
    State.wf_storeBytes (s := s) hwf hin⟩

/-- Settles O32: the block V0 to Vx, stored from I on and read back. -/
theorem storeRegistersWritesTheBlock : Obligations.StoreRegistersWritesTheBlock := by
  refine fun x => ⟨encodes_encode (i := .ldMemVx x) rfl, fun s hwf hin hlow => ?_⟩
  have hin' : s.I.toNat + (s.regBlock x).length ≤ Config.memSize := by rwa [s.length_regBlock]
  refine ⟨_, execLdMemVx_of_allowed hin' hlow, fun k hk => State.readByte_store_regBlock hwf hin' hk, fun a ha => ?_,
    rfl, State.wf_storeBytes hwf hin'⟩
  exact State.readByte_storeBytes_outside hwf hin' (by rwa [s.length_regBlock])

/-- Settles O33: the block lies in memory, or it runs past the end. -/
theorem loadRegistersReadsTheBlock : Obligations.LoadRegistersReadsTheBlock := by
  refine fun x => ⟨encodes_encode (i := .ldVxMem x) rfl, fun s => ⟨fun hin => ?_, fun hpast => ?_⟩⟩
  · exact ⟨_, execLdVxMem_of_inside hin, s.reg_loadRegs_readBytes s.I.toNat x, rfl, fun _ => rfl⟩
  · exact execLdVxMem_of_past_end hpast

/-- Settles O35: FX65 reads the block back from the memory that FX55 left. -/
theorem storeThenLoadRestoresRegisters : Obligations.StoreThenLoadRestoresRegisters := by
  intro s t t' x hwf hstore ht hmem hp hI
  obtain ⟨hin, rfl⟩ := exec_ldMemVx_inv hstore ht
  have hI : t'.I = s.I := hI
  have hreg := t'.reg_loadRegs_readBytes t'.I.toNat x
  refine ⟨_, execLdVxMem_of_inside (hI ▸ hin), fun k hk => ?_, fun k hk => ?_⟩
  · calc _ = t'.readByte (t'.I.toNat + k.val) := (hreg k).trans (if_pos hk)
      _ = (s.storeBytes s.I.toNat (s.regBlock x)).readByte (s.I.toNat + k.val) := by
        rw [hI]; exact State.readByte_congr hmem hp _
      _ = s.reg k := State.readByte_store_regBlock hwf (by rwa [s.length_regBlock]) hk
  · exact (hreg k).trans (if_neg (not_le.mpr hk))

end Sys2Proof.Machine
end

section
/-! The events outside RUN: a key press completes the wait (O27), and only it and a reset end it (O28); FAULTED is
entered by a fault (O36) and left by a reset only (O41). -/

namespace Sys2Proof.Machine

variable {s t : State} {es : List Event}

/-- Settles O36: both parts are the definitions of fault entry and of the codes. -/
theorem faultEntryLatchesOnlyTheFaultRegisters : Obligations.FaultEntryLatchesOnlyTheFaultRegisters :=
  ⟨fun _ _ => rfl, rfl⟩

/-- The registers after a completed wait: the key's number in V[wait_reg] (R284). -/
theorem State.toNat_reg_completeWait (s : State) (k : Key) (z : Reg) :
    ((s.completeWait k).reg z).toNat = if z = s.waitReg then k.val else (s.reg z).toNat := by
  have hk : (BitVec.ofNat 8 k.val).toNat = k.val := Nat.mod_eq_of_lt (k.isLt.trans (by decide))
  have hreg : (s.completeWait k).reg z = if z = s.waitReg then BitVec.ofNat 8 k.val else s.reg z :=
    s.reg_setReg s.waitReg z _
  rw [hreg, apply_ite BitVec.toNat, hk]

/-- Settles O27: in AWAIT_KEY the press completes the wait. -/
theorem keyPressCompletesTheWait : Obligations.KeyPressCompletesTheWait := fun s k es hw h =>
  ⟨(s.setInputs es).completeWait k,
    (step_of_cons h).trans (congrArg _ (keyPress_of_awaitKey (s := s.setInputs es) hw k)),
    (s.setInputs es).toNat_reg_completeWait k, rfl⟩

/-! ### What else a step does outside RUN -/

/-- With no event listed nothing happens outside RUN (R36). -/
theorem eq_of_step_of_nil (hrun : s.runState ≠ .run) (ht : step s = .next t) (h : s.inputs = []) : t = s :=
  Host.Outcome.next.inj (ht.symm.trans ((step_of_nil h).trans (stepEvent_of_not_run hrun)))

/-- A step event outside RUN is taken off the list, and that is all (R36). -/
theorem eq_of_step_of_step (hrun : s.runState ≠ .run) (ht : step s = .next t) (h : s.inputs = .step :: es) :
    t = s.setInputs es :=
  Host.Outcome.next.inj (ht.symm.trans ((step_of_cons h).trans (stepEvent_of_not_run (s := s.setInputs es) hrun)))

/-- What a step can do outside RUN when it neither resets the core nor completes a wait, one constructor per kind of
effect. -/
inductive Idles (s : State) : State → Prop
  | nothing (es : List Event) : Idles s (s.setInputs es)
  /-- A tick in AWAIT_KEY under RUNNING (R36, decision D17). -/
  | decay (es : List Event) (hw : s.runState = .awaitKey) (hp : s.params.timersInKeyWait = .running) :
      Idles s (s.setInputs es).decay
  /-- A load, which is handled before the first step only (R364). -/
  | load (rom : List Byte) (es : List Event) (h : s.inputs = .load rom :: es) (hs : s.started = false)
      (mem : List Host.Cell) (errors : Nat) : Idles s { s with mem := mem, loadErrors := errors, inputs := es }
  /-- A new level or byte on an input port, or present_ack. -/
  | ports (es : List Event) (keys : Option (BitVec 16)) (rnd : Option Byte) (dirty : Bool) :
      Idles s { s with keysHeld := keys, rnd := rnd, dirty := dirty, inputs := es }

theorem idles_of_tick (hrun : s.runState ≠ .run) (es : List Event) : Idles s (s.setInputs es).tick := by
  cases hr : s.runState with
  | run => exact absurd hr hrun
  | faulted => rw [tick_of_faulted (s := s.setInputs es) hr]; exact .nothing es
  | awaitKey =>
    cases hp : s.params.timersInKeyWait with
    | frozen => rw [tick_of_frozen (s := s.setInputs es) hr hp]; exact .nothing es
    | running => rw [tick_of_running (s := s.setInputs es) hr hp]; exact .decay es hr hp

theorem idles_of_load {rom : List Byte} (h : s.inputs = .load rom :: es)
    (ht : (s.setInputs es).loadEvent rom = .next t) : Idles s t := by
  obtain ⟨-, hl⟩ | ⟨hs, -, hl⟩ | ⟨hs, -, hl⟩ := loadEvent_cases (s.setInputs es) rom <;> rw [hl] at ht <;> cases ht
  all_goals exact .load rom es h hs _ _

/-- Outside RUN every step but a reset, and but a key press in AWAIT_KEY, leaves the core as it waits (R36, R285,
R324). -/
theorem idles_of_step (hrun : s.runState ≠ .run) (ht : step s = .next t) (hreset : ∀ es, s.inputs ≠ .reset :: es)
    (hkey : s.runState = .awaitKey → ∀ k es, s.inputs ≠ .keyPress k :: es) : Idles s t := by
  cases h : s.inputs with
  | nil =>
    obtain rfl := eq_of_step_of_nil hrun ht h
    exact .nothing t.inputs
  | cons ev es =>
    rw [step_of_cons h] at ht
    cases ev with
    | reset => exact absurd h (hreset es)
    | load rom => exact idles_of_load h ht
    | step =>
      rw [State.handle, stepEvent_of_not_run (s := s.setInputs es) hrun] at ht
      cases ht
      exact .nothing es
    | tick => cases ht; exact idles_of_tick hrun es
    | keyPress k =>
      rw [State.handle, keyPress_of_not_awaitKey (s := s.setInputs es) fun hw => hkey hw k es h] at ht
      cases ht
      exact .nothing es
    | keysHeld | rnd | presentAck => cases ht; exact .ports es _ _ _

/-- Settles O28: the step idles, and no kind of idling ends the wait. -/
theorem onlyKeyPressOrResetEndsTheWait : Obligations.OnlyKeyPressOrResetEndsTheWait := by
  intro s t hw ht hkey hreset
  have hrun : s.runState ≠ .run := by simp [hw]
  have hnil : s.inputs = [] → t = s := eq_of_step_of_nil hrun ht
  have hstep : ∀ es, s.inputs = .step :: es → t = { s with inputs := es } := fun _ => eq_of_step_of_step hrun ht
  cases idles_of_step hrun ht hreset fun _ => hkey with
  | nothing | ports =>
    exact ⟨hw, rfl, rfl, rfl, rfl, rfl, rfl, rfl, fun _ => rfl, fun _ => ⟨rfl, rfl⟩, hnil, hstep⟩
  | decay es _ hp =>
    exact ⟨hw, rfl, rfl, rfl, rfl, rfl, rfl, rfl, fun _ => rfl, fun hf => absurd (hp.symm.trans hf) (by decide), hnil,
      hstep⟩
  | load rom es hl hs =>
    refine ⟨hw, rfl, rfl, rfl, rfl, rfl, rfl, rfl, fun hno => ?_, fun _ => ⟨rfl, rfl⟩, hnil, hstep⟩
    obtain hstarted | hnoload := hno
    · exact absurd hstarted (Bool.eq_false_iff.mp hs)
    · exact absurd hl (hnoload rom es)

/-- Settles O41: the step idles, which keeps FAULTED and its registers; a step, a tick and a key press have no effect
there. -/
theorem faultedIsTerminalUntilReset : Obligations.FaultedIsTerminalUntilReset := by
  intro s t hf ht hreset
  have hrun : s.runState ≠ .run := by simp [hf]
  have hwait : s.runState ≠ .awaitKey := by simp [hf]
  have hnil : s.inputs = [] → t = s := eq_of_step_of_nil hrun ht
  have hevent : ∀ e es, s.inputs = e :: es → e = .step ∨ e = .tick ∨ (∃ k, e = .keyPress k) →
      t = { s with inputs := es } := by
    rintro e es h (rfl | rfl | ⟨k, rfl⟩)
    · exact eq_of_step_of_step hrun ht h
    · rw [step_of_tick h, tick_of_faulted (s := s.setInputs es) hf] at ht
      exact (Host.Outcome.next.inj ht).symm
    · rw [step_of_cons h, State.handle, keyPress_of_not_awaitKey (s := s.setInputs es) hwait] at ht
      exact (Host.Outcome.next.inj ht).symm
  cases idles_of_step hrun ht hreset fun hw => absurd hw hwait with
  | nothing | ports | decay | load => exact ⟨hf, rfl, rfl, rfl, hnil, hevent⟩

end Sys2Proof.Machine
end

section
/-! The load event, in all its cases: O46. -/

namespace Sys2Proof.Machine

variable {s : State} {rom : List Byte}

theorem loadEvent_of_fits (hs : s.started = false) (hlen : rom.length ≤ 3584) :
    s.loadEvent rom = .next (s.storeBytes Config.progBase rom) := by
  obtain ⟨hs', -⟩ | ⟨-, -, h⟩ | ⟨-, hlong, -⟩ := loadEvent_cases s rom
  · exact absurd hs' (Bool.eq_false_iff.mp hs)
  · exact h
  · omega

theorem loadEvent_of_too_long (hs : s.started = false) (hlen : 3584 < rom.length) :
    s.loadEvent rom = .next s.reportLoadError := by
  obtain ⟨hs', -⟩ | ⟨-, hfits, -⟩ | ⟨-, -, h⟩ := loadEvent_cases s rom
  · exact absurd hs' (Bool.eq_false_iff.mp hs)
  · omega
  · exact h

/-- Settles O46: a ROM that fits is one store at 0x200, a longer one is counted, and a late one is refused. -/
theorem loadCopiesTheRomBeforeTheFirstStep : Obligations.LoadCopiesTheRomBeforeTheFirstStep := by
  intro s rom es h
  refine ⟨fun hs hlen hwf => ?_, fun hs hlen => ?_, fun hs => ?_⟩
  · have hin : Config.progBase + rom.length ≤ Config.memSize := by simp only [Config.progBase, Config.memSize]; omega
    refine ⟨(s.setInputs es).storeBytes Config.progBase rom,
      (step_of_cons h).trans (loadEvent_of_fits (s := s.setInputs es) hs hlen), fun k hk => ?_,
      fun a ha => State.readByte_storeBytes_outside (s := s.setInputs es) hwf hin ha, rfl,
      State.wf_storeBytes (s := s.setInputs es) hwf hin⟩
    exact (State.readByte_storeBytes_inside (s := s.setInputs es) hwf hin hk).trans (List.getD_eq_getElem _ _ hk)
  · exact (step_of_cons h).trans (loadEvent_of_too_long (s := s.setInputs es) hs hlen)
  · exact (step_of_cons h).trans (if_pos hs)

end Sys2Proof.Machine
end
